-- ==== Sys2Proof/Word.lean ====
section
/-! DEFINITION. The two words that cross a port: the byte (R10, R55) and the 9-bit input token word (R83). -/

namespace Sys2Proof

/-- A stream element, 8 bits; bit 7 is the most significant and the sign bit (R10, R55). -/
abbrev Byte := BitVec 8

/-- `tw`: bit 8 is `in_kind`, bits 7..0 are `in_data` (R83). -/
abbrev TokenWord := BitVec 9

end Sys2Proof
end

