-- ==== Sys2Proof/Config.lean ====
section
/-! DEFINITION. What is fixed for the machine: the format constants (R7), the default counter width (R8), and the
free values the spec leaves open. -/

namespace Sys2Proof.Config

/-- Maximum literal record length, `MAX_LIT` (R7). -/
def maxLit : Nat := 127

/-- Minimum literal record length, `MIN_LIT` (R7). -/
def minLit : Nat := 1

/-- Maximum run record count, `MAX_RUN` (R7). -/
def maxRun : Nat := 127

/-- Minimum run record count, `MIN_RUN` (R7). -/
def minRun : Nat := 2

/-- The default of the parameter `CNT_W` (R8). The machine reads the width from `State.cntW` (log entry 3). -/
def defaultCntW : Nat := 32

/-- What ENC drives on `out_kind` while `out_valid = 0`: unspecified (R85, I6), a FREE VALUE, one for each value of
`State.tick`. No body: nothing can be proved of it (log entry 8). -/
opaque encIdleOutKind : Nat → BitVec 2

/-- What ENC drives on `out_data` while `out_valid = 0`: a FREE VALUE (R85, I6; log entry 8). -/
opaque encIdleOutData : Nat → Byte

/-- What DEC drives on `out_kind` while `out_valid = 0`: a FREE VALUE (R85, I6; log entry 8). -/
opaque decIdleOutKind : Nat → BitVec 2

/-- What DEC drives on `out_data` while `out_valid = 0`: a FREE VALUE (R85, I6; log entry 8). -/
opaque decIdleOutData : Nat → Byte

end Sys2Proof.Config
end

