-- ==== Sys2Proof/Machine/State.lean ====
section
/-! DEFINITION. The state of the block: two engine records (R20), and beside them the model's own fields for what the
spec calls inputs of a step and streams (R39, R50, R188). -/

namespace Sys2Proof.Machine

/-- The two errors this hardware raises (R200). -/
inductive ErrKind where
  | truncatedRecord
  | invalidControlByte
  deriving DecidableEq, Repr

/-- An input token: `Byte(b)` or `End` (R12). -/
inductive InTok where
  | byte (b : Byte)
  | endTok
  deriving DecidableEq, Repr

/-- An output token: `Byte(b)`, `End` or `Error(e)` (R12). -/
inductive OutTok where
  | byte (b : Byte)
  | endTok
  | error (e : ErrKind)
  deriving DecidableEq, Repr

/-- ENC's core state (R21). The literal buffer (R53) is the list `buf`, cell `i` its element `i` (log entry 9). -/
inductive EncCore where
  | idle
  | lit (buf : List Byte)
  | run (v : Byte) (n : Nat)
  deriving DecidableEq, Repr

/-- DEC's core state (R24). -/
inductive DecCore where
  | ctrl
  | runVal (n : Nat)
  | litPay (r : Nat)
  | drain
  deriving DecidableEq, Repr

/-- How ENC's most recent invocation ended: NONE = 0, OK = 1 (R29). -/
inductive EncResult where
  | none
  | ok
  deriving DecidableEq, Repr

/-- How DEC's most recent invocation ended: NONE = 0, OK = 1, TRUNCATED = 2, INVALID = 3 (R29). -/
inductive DecResult where
  | none
  | ok
  | truncated
  | invalid
  deriving DecidableEq, Repr

/-- One engine's record: the six fields of R20, no others. The counters are numbers below `2 ^ cntW` (R28): the width
is a parameter (R8), so their bound is an invariant, and each addition wraps where it is written (R182, R185). -/
structure Engine (κ ρ : Type) where
  core : κ
  /-- An invocation is open (R26). -/
  active : Bool
  /-- Output tokens emitted and not yet delivered, oldest first (R27). -/
  pend : List OutTok
  inCount : Nat
  outCount : Nat
  result : ρ
  deriving DecidableEq, Repr

/-- ENC's record (R20). -/
abbrev EncState := Engine EncCore EncResult

/-- DEC's record (R20). -/
abbrev DecState := Engine DecCore DecResult

/-- The input pins of one engine at one rising edge of `clk` (R84). -/
structure Pins where
  rst : Bool
  inValid : Bool
  inKind : BitVec 1
  inData : Byte
  outReady : Bool
  deriving DecidableEq, Repr

/-- The pins of both engines at one rising edge (R3, R84; log entry 1). -/
structure Edge where
  enc : Pins
  dec : Pins
  deriving DecidableEq, Repr

/-- The model's own record of one engine's two streams since its last Reset, oldest first: the tokens accepted (R51)
and the tokens delivered (R52). These are the two sequences R188 relates (log entry 4). -/
structure Trace where
  accepted : List InTok
  delivered : List OutTok
  deriving DecidableEq, Repr

/-- The machine. `enc` and `dec` are the spec's state (R20); the other fields are the model's own. -/
structure State where
  /-- The parameter `CNT_W` (R8); no step writes it (log entry 3). -/
  cntW : Nat
  enc : EncState
  dec : DecState
  encTrace : Trace
  decTrace : Trace
  /-- What the host drives at the coming edges, next first; past its end all pins are 0 (R39; log entry 2). -/
  edges : List Edge
  /-- The number of edges so far: it indexes the free values of the output pins (I6; log entry 8). -/
  tick : Nat
  deriving DecidableEq, Repr

/-- What stops the machine. The spec has no such stop in a state that a run reaches (R115, R151): each of these is
raised only in a state the spec's invariants exclude. SAFE: the model stops where the spec says nothing. -/
inductive Fault where
  /-- Raised when ENC is offered a token while its core is outside R22 (`Lit` of 0 or over 127 bytes, `Run` of a count
  outside 2..127): no row of R114 applies. Safe. -/
  | encCoreIllegal
  /-- Raised when DEC is offered a token while its core is outside R25 (`RunVal` outside 2..127, `LitPay` outside
  1..127): no row of R151 applies. Safe. -/
  | decCoreIllegal
  /-- Raised when ENC would deliver an `Error` token, which R204 says it never outputs. Safe. -/
  | encErrorToken
  deriving DecidableEq, Repr

/-- Why an instruction is given no meaning. -/
inductive Refusal where
  /-- An arm of `exec` without a meaning. No arm of this model raises it. Safe. -/
  | notModelled (mnemonic : String)
  /-- Raised by a meaning called where its rule's "Applies in" does not hold (another core state or guard, or a control
  byte outside the row): the spec gives the rule no effect there. `step` never does so: the decoder picks the row that
  applies. Safe (log entry 6). -/
  | ruleNotApplicable
  deriving DecidableEq, Repr

/-- ENC after Reset (R38, R230). -/
def EncState.reset : EncState :=
  { core := .idle, active := false, pend := [], inCount := 0, outCount := 0, result := .none }

/-- DEC after Reset (R38, R230). -/
def DecState.reset : DecState :=
  { core := .ctrl, active := false, pend := [], inCount := 0, outCount := 0, result := .none }

/-- No token accepted or delivered yet. -/
def Trace.empty : Trace := { accepted := [], delivered := [] }

/-- Both engines after Reset with counters of `w` bits, and a host that drives nothing (R38, R8). -/
def State.resetWith (w : Nat) : State :=
  { cntW := w, enc := EncState.reset, dec := DecState.reset, encTrace := Trace.empty, decTrace := Trace.empty,
    edges := [], tick := 0 }

/-- The machine right after reset, with the default counter width (R38, R8). -/
def State.reset : State := State.resetWith Config.defaultCntW

end Sys2Proof.Machine
end

