-- ==== Sys2Proof/Machine/Operands.lean ====
section
/-! DEFINITION. Every operand form: the readings of a byte (R10), the control byte's classes and fields (R70, R73, R74),
the input token word (R83) and the output token encoding (R85, R200). -/

namespace Sys2Proof.Machine

/-- The unsigned reading of a byte, 0..255 (R10). -/
def u8 (v : Byte) : Nat := v.toNat

/-- The two's-complement reading of a byte (R10). -/
def s8 (v : Byte) : Int := if v.getLsbD 7 then (u8 v : Int) - 256 else (u8 v : Int)

/-- The class of a control byte, with its operand (R70). -/
inductive CtrlClass where
  | run (n : Nat)
  | lit (len : Nat)
  | invalid
  deriving DecidableEq, Repr

/-- `zext(c[6:0])` (R73). -/
def ctrlField (c : Byte) : Nat := (c.extractLsb' 0 7).toNat

/-- The operand assembly of R73: bit 7 selects the class; a run is legal from count 2, a literal when `c[6:0] != 0`. -/
def ctrlClass (c : Byte) : CtrlClass :=
  if c.getLsbD 7 then
    if ctrlField c = 0 then .invalid else .lit (128 - ctrlField c)
  else
    if ctrlField c < Config.minRun then .invalid else .run (ctrlField c)

/-- The control byte of a run of count `n` (R74, R102). -/
def runControl (n : Nat) : Byte := BitVec.ofNat 8 n

/-- The control byte of a literal of length `len`: `256 - len` (R74, R101). -/
def litControl (len : Nat) : Byte := BitVec.ofNat 8 (256 - len)

/-- The token an input token word carries: `in_kind = 0` a byte, `in_kind = 1` `End`, with `in_data` ignored (R83). -/
def tokenOf (tw : TokenWord) : InTok :=
  if tw.getLsbD 8 then .endTok else .byte (tw.extractLsb' 0 8)

/-- The word `{in_kind, in_data}` on an engine's input pins (R83). -/
def Pins.tokenWord (p : Pins) : TokenWord := p.inKind ++ p.inData

/-- The code of an error kind (R200). -/
def errCode : ErrKind → Nat
  | .truncatedRecord => 2
  | .invalidControlByte => 3

/-- `out_kind` of an output token (R85). -/
def outKindOf : OutTok → BitVec 2
  | .byte _ => 0b00#2
  | .endTok => 0b01#2
  | .error _ => 0b10#2

/-- `out_data` of an output token (R85). -/
def outDataOf : OutTok → Byte
  | .byte b => b
  | .endTok => 0x00#8
  | .error e => BitVec.ofNat 8 (errCode e)

/-- The code of ENC's `result` in the status word (R29, R86). -/
def encResultCode : EncResult → BitVec 2
  | .none => 0b00#2
  | .ok => 0b01#2

/-- The code of DEC's `result` in the status word (R29, R86). -/
def decResultCode : DecResult → BitVec 2
  | .none => 0b00#2
  | .ok => 0b01#2
  | .truncated => 0b10#2
  | .invalid => 0b11#2

/-- ENC's core tag (R23, R86). -/
def encTag : EncCore → BitVec 2
  | .idle => 0b00#2
  | .lit _ => 0b01#2
  | .run _ _ => 0b10#2

/-- DEC's core tag (R25, R86). -/
def decTag : DecCore → BitVec 2
  | .ctrl => 0b00#2
  | .runVal _ => 0b01#2
  | .litPay _ => 0b10#2
  | .drain => 0b11#2

end Sys2Proof.Machine
end

