-- ==== Sys2Proof/Machine/Flags.lean ====
section
/-! DEFINITION. The block keeps no flags (R33): the tests of ENC and DEC are made within one step. This file holds those
tests, and the status word and handshake signals, which are functions of the state (R30, R31, R86). -/

namespace Sys2Proof.Machine

/-- A literal's length is legal (R22, R101). -/
def litLegal (buf : List Byte) : Bool := decide (Config.minLit ≤ buf.length ∧ buf.length ≤ Config.maxLit)

/-- The literal cap is reached: `|buf| = 127` (R104). It is tested before equality (R105). -/
def litFull (buf : List Byte) : Bool := decide (buf.length = Config.maxLit)

/-- The literal can still grow: legal and `|buf| < 127` (R106, R107). -/
def litOpen (buf : List Byte) : Bool := decide (Config.minLit ≤ buf.length ∧ buf.length < Config.maxLit)

/-- `b = last(buf)` (R106, R107). -/
def matchesLast (b : Byte) (buf : List Byte) : Bool := decide (buf.getLast? = some b)

/-- A run count is legal: 2..127 (R22, R25, R102). -/
def runLegal (n : Nat) : Bool := decide (Config.minRun ≤ n ∧ n ≤ Config.maxRun)

/-- A legal run count below the cap (R108). -/
def runOpen (n : Nat) : Bool := decide (Config.minRun ≤ n ∧ n < Config.maxRun)

/-- The run count is at its cap (R109). -/
def runFull (n : Nat) : Bool := decide (n = Config.maxRun)

/-- The number of payload bytes still expected is legal: 1..127 (R25). -/
def payLegal (r : Nat) : Bool := decide (Config.minLit ≤ r ∧ r ≤ Config.maxLit)

/-- `busy = (pend != [])` (R30, R86). -/
def Engine.busy {κ ρ : Type} (e : Engine κ ρ) : Bool :=
  match e.pend with
  | [] => false
  | _ :: _ => true

/-- `in_ready = (pend = []) and not rst` (R31). -/
def Engine.inReady {κ ρ : Type} (rst : Bool) (e : Engine κ ρ) : Bool := !e.busy && !rst

/-- `out_valid = (pend != []) and not rst` (R31). -/
def Engine.outValid {κ ρ : Type} (rst : Bool) (e : Engine κ ρ) : Bool := e.busy && !rst

/-- The status word from its fields: reserved `[7:6] = 00`, result `[5:4]`, busy `[3]`, active `[2]`, tag `[1:0]`
(R86). -/
def statusWord (tag : BitVec 2) (active busy : Bool) (result : BitVec 2) : Byte :=
  0b00#2 ++ result ++ BitVec.ofBool busy ++ BitVec.ofBool active ++ tag

/-- ENC's status word (R86). -/
def encStatus (e : EncState) : Byte := statusWord (encTag e.core) e.active e.busy (encResultCode e.result)

/-- DEC's status word (R86). -/
def decStatus (e : DecState) : Byte := statusWord (decTag e.core) e.active e.busy (decResultCode e.result)

end Sys2Proof.Machine
end

