-- ==== Sys2Proof/Syntax.lean ====
section
/-! DEFINITION. The instructions: one constructor for each of the 22 rows of spec/opcode_table.json (R87). -/

namespace Sys2Proof

/-- One transition rule. `b`, `c`, `v` name the byte `tw[7:0]` of the accepted token as the rule names it; an End row
ignores `tw[7:0]` (R83) and the three INVALID rows fix it, so these have no operand. -/
inductive Instr where
  /-- E.IDLE.BYTE, R103. -/
  | eIdleByte (b : Byte)
  /-- E.LIT.CAP, R104. -/
  | eLitCap (b : Byte)
  /-- E.LIT.MATCH, R106. -/
  | eLitMatch (b : Byte)
  /-- E.LIT.APPEND, R107. -/
  | eLitAppend (b : Byte)
  /-- E.RUN.EXTEND, R108. -/
  | eRunExtend (b : Byte)
  /-- E.RUN.CAP, R109. -/
  | eRunCap (b : Byte)
  /-- E.RUN.BREAK, R110. -/
  | eRunBreak (b : Byte)
  /-- E.END.IDLE, R111. -/
  | eEndIdle
  /-- E.END.LIT, R112. -/
  | eEndLit
  /-- E.END.RUN, R113. -/
  | eEndRun
  /-- D.CTRL.RUN, R141; `c` is the control byte. -/
  | dCtrlRun (c : Byte)
  /-- D.CTRL.LIT, R142; `c` is the control byte. -/
  | dCtrlLit (c : Byte)
  /-- D.CTRL.INVALID.00, R143. -/
  | dCtrlInvalid00
  /-- D.CTRL.INVALID.01, R143. -/
  | dCtrlInvalid01
  /-- D.CTRL.INVALID.80, R143. -/
  | dCtrlInvalid80
  /-- D.RUNVAL.BYTE, R144. -/
  | dRunvalByte (v : Byte)
  /-- D.LITPAY.BYTE, R145. -/
  | dLitpayByte (b : Byte)
  /-- D.DRAIN.BYTE, R146. -/
  | dDrainByte (b : Byte)
  /-- D.END.CTRL, R147. -/
  | dEndCtrl
  /-- D.END.RUNVAL, R148. -/
  | dEndRunval
  /-- D.END.LITPAY, R149. -/
  | dEndLitpay
  /-- D.END.DRAIN, R150. -/
  | dEndDrain
  deriving DecidableEq, Repr

end Sys2Proof
end

