-- ==== Sys2Proof/WellFormed.lean ====
section
/-! DEFINITION. The operand values a row of the opcode table admits: `match`, `mask` and `excludes` (R87), which limit
an operand only in the two control-byte rows (R141, R142). -/

namespace Sys2Proof

/-- Every byte is an operand of every Byte row (R78), but D.CTRL.RUN takes `0x02..0x7F` (R141) and D.CTRL.LIT takes
`0x81..0xFF` (R142). -/
def Instr.wellFormed : Instr → Bool
  | .eIdleByte _ => true
  | .eLitCap _ => true
  | .eLitMatch _ => true
  | .eLitAppend _ => true
  | .eRunExtend _ => true
  | .eRunCap _ => true
  | .eRunBreak _ => true
  | .eEndIdle => true
  | .eEndLit => true
  | .eEndRun => true
  | .dCtrlRun c => decide (0x02 ≤ c.toNat ∧ c.toNat ≤ 0x7F)
  | .dCtrlLit c => decide (0x81 ≤ c.toNat ∧ c.toNat ≤ 0xFF)
  | .dCtrlInvalid00 => true
  | .dCtrlInvalid01 => true
  | .dCtrlInvalid80 => true
  | .dRunvalByte _ => true
  | .dLitpayByte _ => true
  | .dDrainByte _ => true
  | .dEndCtrl => true
  | .dEndRunval => true
  | .dEndLitpay => true
  | .dEndDrain => true

end Sys2Proof
end

