-- ==== Sys2Proof/Decode.lean ====
section
/-! DEFINITION. Decoding: which row of the opcode table an engine runs on an input token word, given its core state
(R87, R114, R151), and the encoder. -/

namespace Sys2Proof

open Machine

/-- The two engines (R3). -/
inductive EngineId where
  | enc
  | dec
  deriving DecidableEq, Repr

/-- The part of a row of spec/opcode_table.json that matches a token word (R87). -/
structure TableRow where
  engine : EngineId
  pattern : TokenWord
  mask : TokenWord
  excludes : List Byte
  deriving DecidableEq, Repr

/-- A row matches `tw` when `tw & mask = match` and `tw[7:0]` is not in `excludes` (R87). -/
def TableRow.matchesWord (r : TableRow) (tw : TokenWord) : Bool :=
  decide (tw &&& r.mask = r.pattern ∧ ¬ tw.extractLsb' 0 8 ∈ r.excludes)

/-- The row of each instruction, as spec/opcode_table.json has it. -/
def Instr.row : Instr → TableRow
  | .eIdleByte _ => ⟨.enc, 0x000#9, 0x100#9, []⟩
  | .eLitCap _ => ⟨.enc, 0x000#9, 0x100#9, []⟩
  | .eLitMatch _ => ⟨.enc, 0x000#9, 0x100#9, []⟩
  | .eLitAppend _ => ⟨.enc, 0x000#9, 0x100#9, []⟩
  | .eRunExtend _ => ⟨.enc, 0x000#9, 0x100#9, []⟩
  | .eRunCap _ => ⟨.enc, 0x000#9, 0x100#9, []⟩
  | .eRunBreak _ => ⟨.enc, 0x000#9, 0x100#9, []⟩
  | .eEndIdle => ⟨.enc, 0x100#9, 0x100#9, []⟩
  | .eEndLit => ⟨.enc, 0x100#9, 0x100#9, []⟩
  | .eEndRun => ⟨.enc, 0x100#9, 0x100#9, []⟩
  | .dCtrlRun _ => ⟨.dec, 0x000#9, 0x180#9, [0x00#8, 0x01#8]⟩
  | .dCtrlLit _ => ⟨.dec, 0x080#9, 0x180#9, [0x80#8]⟩
  | .dCtrlInvalid00 => ⟨.dec, 0x000#9, 0x1FF#9, []⟩
  | .dCtrlInvalid01 => ⟨.dec, 0x001#9, 0x1FF#9, []⟩
  | .dCtrlInvalid80 => ⟨.dec, 0x080#9, 0x1FF#9, []⟩
  | .dRunvalByte _ => ⟨.dec, 0x000#9, 0x100#9, []⟩
  | .dLitpayByte _ => ⟨.dec, 0x000#9, 0x100#9, []⟩
  | .dDrainByte _ => ⟨.dec, 0x000#9, 0x100#9, []⟩
  | .dEndCtrl => ⟨.dec, 0x100#9, 0x100#9, []⟩
  | .dEndRunval => ⟨.dec, 0x100#9, 0x100#9, []⟩
  | .dEndLitpay => ⟨.dec, 0x100#9, 0x100#9, []⟩
  | .dEndDrain => ⟨.dec, 0x100#9, 0x100#9, []⟩

/-- The row ENC runs on token word `tw` in core state `core` (R114). The literal cap comes before equality (R105). The
only rejection is a core that no run reaches (R22, R115): every token word is legal (R77, R83). -/
def decodeEnc (core : EncCore) (tw : TokenWord) : Except Fault Instr :=
  match tokenOf tw, core with
  | .byte b, .idle => .ok (.eIdleByte b)
  | .byte b, .lit buf =>
    if litFull buf then .ok (.eLitCap b)
    else if litOpen buf then
      if matchesLast b buf then .ok (.eLitMatch b) else .ok (.eLitAppend b)
    else .error .encCoreIllegal
  | .byte b, .run v n =>
    if runLegal n then
      if b = v then
        if runFull n then .ok (.eRunCap b) else .ok (.eRunExtend b)
      else .ok (.eRunBreak b)
    else .error .encCoreIllegal
  | .endTok, .idle => .ok .eEndIdle
  | .endTok, .lit buf => if litLegal buf then .ok .eEndLit else .error .encCoreIllegal
  | .endTok, .run _ n => if runLegal n then .ok .eEndRun else .error .encCoreIllegal

/-- The row of a control byte, by the `match`, `mask` and `excludes` of the five `Ctrl` Byte rows (R87, R141 to R143). -/
def decodeControl (c : Byte) : Instr :=
  if c = 0x00#8 then .dCtrlInvalid00
  else if c = 0x01#8 then .dCtrlInvalid01
  else if c = 0x80#8 then .dCtrlInvalid80
  else if c.getLsbD 7 then .dCtrlLit c
  else .dCtrlRun c

/-- The row DEC runs on token word `tw` in core state `core` (R151). The only rejection is a core that no run reaches
(R25). -/
def decodeDec (core : DecCore) (tw : TokenWord) : Except Fault Instr :=
  match tokenOf tw, core with
  | .byte c, .ctrl => .ok (decodeControl c)
  | .byte v, .runVal n => if runLegal n then .ok (.dRunvalByte v) else .error .decCoreIllegal
  | .byte b, .litPay r => if payLegal r then .ok (.dLitpayByte b) else .error .decCoreIllegal
  | .byte b, .drain => .ok (.dDrainByte b)
  | .endTok, .ctrl => .ok .dEndCtrl
  | .endTok, .runVal n => if runLegal n then .ok .dEndRunval else .error .decCoreIllegal
  | .endTok, .litPay r => if payLegal r then .ok .dEndLitpay else .error .decCoreIllegal
  | .endTok, .drain => .ok .dEndDrain

/-- The row the engine `id` runs on `tw` in state `s`. -/
def decodeAt (id : EngineId) (s : State) (tw : TokenWord) : Except Fault Instr :=
  match id with
  | .enc => decodeEnc s.enc.core tw
  | .dec => decodeDec s.dec.core tw

/-- The token word of a `Byte` token (R83). -/
def byteWord (b : Byte) : TokenWord := 0#1 ++ b

/-- The token word of `End` with `in_data = 0`; the hardware ignores `in_data` there (R83; log entry 10). -/
def endWord : TokenWord := 0x100#9

/-- The token word of a row with its operand. -/
def encode : Instr → TokenWord
  | .eIdleByte b => byteWord b
  | .eLitCap b => byteWord b
  | .eLitMatch b => byteWord b
  | .eLitAppend b => byteWord b
  | .eRunExtend b => byteWord b
  | .eRunCap b => byteWord b
  | .eRunBreak b => byteWord b
  | .eEndIdle => endWord
  | .eEndLit => endWord
  | .eEndRun => endWord
  | .dCtrlRun c => byteWord c
  | .dCtrlLit c => byteWord c
  | .dCtrlInvalid00 => 0x000#9
  | .dCtrlInvalid01 => 0x001#9
  | .dCtrlInvalid80 => 0x080#9
  | .dRunvalByte v => byteWord v
  | .dLitpayByte b => byteWord b
  | .dDrainByte b => byteWord b
  | .dEndCtrl => endWord
  | .dEndRunval => endWord
  | .dEndLitpay => endWord
  | .dEndDrain => endWord

/-- The token word in the low nine bits of a table word (R83, R87). -/
def tableTokenWord (nbits w : Nat) : TokenWord := BitVec.ofNat 9 (w % 2 ^ nbits)

/-- What the model's decoder reads from a bare table word. A token word names neither its engine nor its core state, so
one word belongs to several rows (R87); a bare word is read as the next control byte of a record, at DEC in `Ctrl`, where
alone the word selects the row (log entry 5). -/
def decodeTableWord (nbits w : Nat) : Option Instr :=
  match decodeDec .ctrl (tableTokenWord nbits w) with
  | .ok i => some i
  | .error _ => none

end Sys2Proof
end

