-- ==== Sys2Proof/Machine/Ops.lean ====
section
/-! DEFINITION. The operations the rules are written with: `emit`, a write of `core`, the flushes, raising an error and
leaving it, the framing of an invocation, and the whole `Accept` of either engine. -/

namespace Sys2Proof.Machine

/-- `core <- k` (R11). -/
def Engine.goto {κ ρ : Type} (k : κ) (e : Engine κ ρ) : Engine κ ρ := { e with core := k }

/-- `emit_all(ts)`: append each token of `ts`, in order, to `pend` (R11, R27). -/
def Engine.emitAll {κ ρ : Type} (ts : List OutTok) (e : Engine κ ρ) : Engine κ ρ := { e with pend := e.pend ++ ts }

/-- `emit(t)` (R11). -/
def Engine.emit {κ ρ : Type} (t : OutTok) (e : Engine κ ρ) : Engine κ ρ := e.emitAll [t]

/-- `flush_lit(p)`: the control byte `256 - |p|`, then the bytes of `p` in increasing index order (R101, R53). -/
def flushLit (p : List Byte) (e : EncState) : EncState :=
  (e.emit (.byte (litControl p.length))).emitAll (p.map .byte)

/-- `flush_run(n, v)`: the control byte `n`, then `v` (R102). -/
def flushRun (n : Nat) (v : Byte) (e : EncState) : EncState :=
  (e.emit (.byte (runControl n))).emit (.byte v)

/-- The core state an error leaves DEC in: `Drain` after `InvalidControlByte`, `Ctrl` after `TruncatedRecord` (R201). -/
def errorCore : ErrKind → DecCore
  | .invalidControlByte => .drain
  | .truncatedRecord => .ctrl

/-- `raise E`: the one operation by which DEC takes an error. It emits `Error(E)`, sets the core and ends the rule; it
saves nothing and changes no mode (R11, R201, R207). -/
def raiseError (k : ErrKind) (e : DecState) : DecState := (e.emit (.error k)).goto (errorCore k)

/-- The exit from `InvalidControlByte` at the invocation's `End`: back to `Ctrl`, nothing emitted (R150, R208). There is
no other return from an error (R208). -/
def leaveDrain (e : DecState) : DecState := e.goto .ctrl

/-- The framing before the rule, for the first token of an invocation: counters and result cleared, `active` set (R181).
`noResult` is the engine's NONE. -/
def Engine.begin {κ ρ : Type} (noResult : ρ) (e : Engine κ ρ) : Engine κ ρ :=
  if e.active then e else { e with inCount := 0, outCount := 0, result := noResult, active := true }

/-- A counter's next value, modulo `2 ^ w` (R182, R185, R191). -/
def countUp (w n : Nat) : Nat := (n + 1) % 2 ^ w

/-- Input counting: a `Byte` token counts, `End` does not (R182). -/
def Engine.countIn {κ ρ : Type} (w : Nat) (t : InTok) (e : Engine κ ρ) : Engine κ ρ :=
  match t with
  | .byte _ => { e with inCount := countUp w e.inCount }
  | .endTok => e

/-- The framing after the rule: `End` ends the invocation (R183). -/
def Engine.finish {κ ρ : Type} (t : InTok) (e : Engine κ ρ) : Engine κ ρ :=
  match t with
  | .byte _ => e
  | .endTok => { e with active := false }

/-- `Accept(t)` on one engine's record: framing, rule, framing, committed together (R100, R140). `rule` answers none
where its "Applies in" does not hold. -/
def Engine.accept {κ ρ : Type} (noResult : ρ) (w : Nat) (t : InTok) (rule : Engine κ ρ → Option (Engine κ ρ))
    (e : Engine κ ρ) : Option (Engine κ ρ) :=
  match rule ((e.begin noResult).countIn w t) with
  | some e' => some (e'.finish t)
  | none => none

/-- The stream record after token `t` was accepted (R51; log entry 4). -/
def Trace.accept (t : InTok) (tr : Trace) : Trace := { tr with accepted := tr.accepted ++ [t] }

/-- The stream record after token `t` was delivered (R52; log entry 4). -/
def Trace.deliver (t : OutTok) (tr : Trace) : Trace := { tr with delivered := tr.delivered ++ [t] }

/-- The state with another ENC record and ENC stream record. -/
def State.setEnc (e : EncState) (tr : Trace) (s : State) : State := { s with enc := e, encTrace := tr }

/-- The state with another DEC record and DEC stream record. -/
def State.setDec (e : DecState) (tr : Trace) (s : State) : State := { s with dec := e, decTrace := tr }

/-- `Accept(t)` on ENC by one rule (R100). While `pend` is not empty no token is accepted and nothing changes (R180;
log entry 6). -/
def acceptEnc (t : InTok) (rule : EncState → Option EncState) (s : State) : Host.Outcome State Fault Refusal :=
  match s.enc.busy with
  | true => .next s
  | false =>
    match s.enc.accept .none s.cntW t rule with
    | some e => .next (s.setEnc e (s.encTrace.accept t))
    | none => .refused .ruleNotApplicable

/-- `Accept(t)` on DEC by one rule (R140). While `pend` is not empty no token is accepted and nothing changes (R180;
log entry 6). -/
def acceptDec (t : InTok) (rule : DecState → Option DecState) (s : State) : Host.Outcome State Fault Refusal :=
  match s.dec.busy with
  | true => .next s
  | false =>
    match s.dec.accept .none s.cntW t rule with
    | some e => .next (s.setDec e (s.decTrace.accept t))
    | none => .refused .ruleNotApplicable

end Sys2Proof.Machine
end

