-- ==== Sys2Proof/Machine/Decoder.lean ====
section
/-! DEFINITION. The transition rules of DEC (41_decoder.md), one meaning for each of their twelve rows: the whole
`Accept` by that rule. -/

namespace Sys2Proof.Machine

/-- D.CTRL.RUN (R141): a run control byte; its value byte is expected next. -/
def execDCtrlRun (c : Byte) (s : State) : Host.Outcome State Fault Refusal :=
  acceptDec (.byte c) (fun e =>
    match e.core, ctrlClass c with
    | .ctrl, .run n => some (e.goto (.runVal n))
    | _, _ => none) s

/-- D.CTRL.LIT (R142): a literal control byte; its payload is expected next. -/
def execDCtrlLit (c : Byte) (s : State) : Host.Outcome State Fault Refusal :=
  acceptDec (.byte c) (fun e =>
    match e.core, ctrlClass c with
    | .ctrl, .lit len => some (e.goto (.litPay len))
    | _, _ => none) s

/-- What R143 does in `Ctrl`, for each of its three bytes. -/
def invalidControl (e : DecState) : Option DecState :=
  match e.core with
  | .ctrl => some (raiseError .invalidControlByte e)
  | .runVal _ => none
  | .litPay _ => none
  | .drain => none

/-- D.CTRL.INVALID.00 (R143): the control byte `0x00`. -/
def execDCtrlInvalid00 (s : State) : Host.Outcome State Fault Refusal :=
  acceptDec (.byte 0x00#8) invalidControl s

/-- D.CTRL.INVALID.01 (R143): the control byte `0x01`. -/
def execDCtrlInvalid01 (s : State) : Host.Outcome State Fault Refusal :=
  acceptDec (.byte 0x01#8) invalidControl s

/-- D.CTRL.INVALID.80 (R143): the control byte `0x80`. -/
def execDCtrlInvalid80 (s : State) : Host.Outcome State Fault Refusal :=
  acceptDec (.byte 0x80#8) invalidControl s

/-- D.RUNVAL.BYTE (R144): the whole run is emitted with its value byte. -/
def execDRunvalByte (v : Byte) (s : State) : Host.Outcome State Fault Refusal :=
  acceptDec (.byte v) (fun e =>
    match e.core with
    | .runVal n => if runLegal n then some ((e.emitAll (List.replicate n (.byte v))).goto .ctrl) else none
    | .ctrl => none
    | .litPay _ => none
    | .drain => none) s

/-- D.LITPAY.BYTE (R145): a payload byte passes through. -/
def execDLitpayByte (b : Byte) (s : State) : Host.Outcome State Fault Refusal :=
  acceptDec (.byte b) (fun e =>
    match e.core with
    | .litPay r =>
      if payLegal r then some ((e.emit (.byte b)).goto (if r = 1 then .ctrl else .litPay (r - 1))) else none
    | .ctrl => none
    | .runVal _ => none
    | .drain => none) s

/-- D.DRAIN.BYTE (R146): the byte is counted and discarded. -/
def execDDrainByte (b : Byte) (s : State) : Host.Outcome State Fault Refusal :=
  acceptDec (.byte b) (fun e =>
    match e.core with
    | .drain => some e
    | .ctrl => none
    | .runVal _ => none
    | .litPay _ => none) s

/-- D.END.CTRL (R147). -/
def execDEndCtrl (s : State) : Host.Outcome State Fault Refusal :=
  acceptDec .endTok (fun e =>
    match e.core with
    | .ctrl => some (e.emit .endTok)
    | .runVal _ => none
    | .litPay _ => none
    | .drain => none) s

/-- D.END.RUNVAL (R148): the stream ends before a run's value byte. -/
def execDEndRunval (s : State) : Host.Outcome State Fault Refusal :=
  acceptDec .endTok (fun e =>
    match e.core with
    | .runVal n => if runLegal n then some (raiseError .truncatedRecord e) else none
    | .ctrl => none
    | .litPay _ => none
    | .drain => none) s

/-- D.END.LITPAY (R149): the stream ends inside a literal's payload. -/
def execDEndLitpay (s : State) : Host.Outcome State Fault Refusal :=
  acceptDec .endTok (fun e =>
    match e.core with
    | .litPay r => if payLegal r then some (raiseError .truncatedRecord e) else none
    | .ctrl => none
    | .runVal _ => none
    | .drain => none) s

/-- D.END.DRAIN (R150): the invocation that raised `InvalidControlByte` ends. -/
def execDEndDrain (s : State) : Host.Outcome State Fault Refusal :=
  acceptDec .endTok (fun e =>
    match e.core with
    | .drain => some (leaveDrain e)
    | .ctrl => none
    | .runVal _ => none
    | .litPay _ => none) s

end Sys2Proof.Machine
end

