-- ==== Sys2Proof/Machine/Encoder.lean ====
section
/-! DEFINITION. The ten transition rules of ENC (40_encoder.md), one meaning each: the whole `Accept` by that rule. -/

namespace Sys2Proof.Machine

/-- E.IDLE.BYTE (R103): the first byte opens a literal. -/
def execEIdleByte (b : Byte) (s : State) : Host.Outcome State Fault Refusal :=
  acceptEnc (.byte b) (fun e =>
    match e.core with
    | .idle => some (e.goto (.lit [b]))
    | .lit _ => none
    | .run _ _ => none) s

/-- E.LIT.CAP (R104): at `|buf| = 127`, whatever `b` is (R105), flush the literal and start another. -/
def execELitCap (b : Byte) (s : State) : Host.Outcome State Fault Refusal :=
  acceptEnc (.byte b) (fun e =>
    match e.core with
    | .lit buf => if litFull buf then some ((flushLit buf e).goto (.lit [b])) else none
    | .idle => none
    | .run _ _ => none) s

/-- E.LIT.MATCH (R106): the literal without its last byte is flushed if it is not empty; the pair starts a run. -/
def execELitMatch (b : Byte) (s : State) : Host.Outcome State Fault Refusal :=
  acceptEnc (.byte b) (fun e =>
    match e.core with
    | .lit buf =>
      if litOpen buf && matchesLast b buf then
        let flushed := if buf.dropLast.length > 0 then flushLit buf.dropLast e else e
        some (flushed.goto (.run b 2))
      else none
    | .idle => none
    | .run _ _ => none) s

/-- E.LIT.APPEND (R107). -/
def execELitAppend (b : Byte) (s : State) : Host.Outcome State Fault Refusal :=
  acceptEnc (.byte b) (fun e =>
    match e.core with
    | .lit buf => if litOpen buf && !matchesLast b buf then some (e.goto (.lit (buf ++ [b]))) else none
    | .idle => none
    | .run _ _ => none) s

/-- E.RUN.EXTEND (R108). -/
def execERunExtend (b : Byte) (s : State) : Host.Outcome State Fault Refusal :=
  acceptEnc (.byte b) (fun e =>
    match e.core with
    | .run v n => if b = v ∧ runOpen n then some (e.goto (.run v (n + 1))) else none
    | .idle => none
    | .lit _ => none) s

/-- E.RUN.CAP (R109). -/
def execERunCap (b : Byte) (s : State) : Host.Outcome State Fault Refusal :=
  acceptEnc (.byte b) (fun e =>
    match e.core with
    | .run v n => if b = v ∧ runFull n then some ((flushRun n v e).goto (.lit [b])) else none
    | .idle => none
    | .lit _ => none) s

/-- E.RUN.BREAK (R110). -/
def execERunBreak (b : Byte) (s : State) : Host.Outcome State Fault Refusal :=
  acceptEnc (.byte b) (fun e =>
    match e.core with
    | .run v n => if b ≠ v ∧ runLegal n then some ((flushRun n v e).goto (.lit [b])) else none
    | .idle => none
    | .lit _ => none) s

/-- E.END.IDLE (R111). -/
def execEEndIdle (s : State) : Host.Outcome State Fault Refusal :=
  acceptEnc .endTok (fun e =>
    match e.core with
    | .idle => some (e.emit .endTok)
    | .lit _ => none
    | .run _ _ => none) s

/-- E.END.LIT (R112). -/
def execEEndLit (s : State) : Host.Outcome State Fault Refusal :=
  acceptEnc .endTok (fun e =>
    match e.core with
    | .lit buf => if litLegal buf then some (((flushLit buf e).emit .endTok).goto .idle) else none
    | .idle => none
    | .run _ _ => none) s

/-- E.END.RUN (R113). -/
def execEEndRun (s : State) : Host.Outcome State Fault Refusal :=
  acceptEnc .endTok (fun e =>
    match e.core with
    | .run v n => if runLegal n then some (((flushRun n v e).emit .endTok).goto .idle) else none
    | .idle => none
    | .lit _ => none) s

end Sys2Proof.Machine
end

