-- ==== Sys2Proof/Machine/Dispatch.lean ====
section
/-! DEFINITION. The meaning of each row of the opcode table. -/

namespace Sys2Proof.Machine

def exec (i : Instr) (s : State) : Host.Outcome State Fault Refusal :=
  match i with
  | .eIdleByte b => Sys2Proof.Machine.execEIdleByte b s
  | .eLitCap b => Sys2Proof.Machine.execELitCap b s
  | .eLitMatch b => Sys2Proof.Machine.execELitMatch b s
  | .eLitAppend b => Sys2Proof.Machine.execELitAppend b s
  | .eRunExtend b => Sys2Proof.Machine.execERunExtend b s
  | .eRunCap b => Sys2Proof.Machine.execERunCap b s
  | .eRunBreak b => Sys2Proof.Machine.execERunBreak b s
  | .eEndIdle => Sys2Proof.Machine.execEEndIdle s
  | .eEndLit => Sys2Proof.Machine.execEEndLit s
  | .eEndRun => Sys2Proof.Machine.execEEndRun s
  | .dCtrlRun c => Sys2Proof.Machine.execDCtrlRun c s
  | .dCtrlLit c => Sys2Proof.Machine.execDCtrlLit c s
  | .dCtrlInvalid00 => Sys2Proof.Machine.execDCtrlInvalid00 s
  | .dCtrlInvalid01 => Sys2Proof.Machine.execDCtrlInvalid01 s
  | .dCtrlInvalid80 => Sys2Proof.Machine.execDCtrlInvalid80 s
  | .dRunvalByte v => Sys2Proof.Machine.execDRunvalByte v s
  | .dLitpayByte b => Sys2Proof.Machine.execDLitpayByte b s
  | .dDrainByte b => Sys2Proof.Machine.execDDrainByte b s
  | .dEndCtrl => Sys2Proof.Machine.execDEndCtrl s
  | .dEndRunval => Sys2Proof.Machine.execDEndRunval s
  | .dEndLitpay => Sys2Proof.Machine.execDEndLitpay s
  | .dEndDrain => Sys2Proof.Machine.execDEndDrain s

end Sys2Proof.Machine
end

