-- ==== Sys2Proof/Machine/Port.lean ====
section
/-! DEFINITION. The ports: what each engine drives (R31, R84 to R86), `Deliver` (R184 to R186) and `Reset` (R230). -/

namespace Sys2Proof.Machine

/-- The output pins of one engine (R84). The counter pins carry `CNT_W` bits, here as the number. -/
structure PortOut where
  inReady : Bool
  outValid : Bool
  outKind : BitVec 2
  outData : Byte
  status : Byte
  inCount : Nat
  outCount : Nat
  deriving DecidableEq, Repr

/-- The token on an output port: the head of `pend`, while `out_valid = 1` (R31, R85). -/
def Engine.shown {κ ρ : Type} (rst : Bool) (e : Engine κ ρ) : Option OutTok :=
  match rst, e.pend with
  | false, t :: _ => some t
  | false, [] => none
  | true, _ => none

/-- What ENC drives; the kind and data are free values while `out_valid = 0` (R85, R189, I6). -/
def encPort (rst : Bool) (s : State) : PortOut :=
  { inReady := s.enc.inReady rst
    outValid := s.enc.outValid rst
    outKind := match s.enc.shown rst with
      | some t => outKindOf t
      | none => Config.encIdleOutKind s.tick
    outData := match s.enc.shown rst with
      | some t => outDataOf t
      | none => Config.encIdleOutData s.tick
    status := encStatus s.enc
    inCount := s.enc.inCount
    outCount := s.enc.outCount }

/-- What DEC drives; the kind and data are free values while `out_valid = 0` (R85, R189, I6). -/
def decPort (rst : Bool) (s : State) : PortOut :=
  { inReady := s.dec.inReady rst
    outValid := s.dec.outValid rst
    outKind := match s.dec.shown rst with
      | some t => outKindOf t
      | none => Config.decIdleOutKind s.tick
    outData := match s.dec.shown rst with
      | some t => outDataOf t
      | none => Config.decIdleOutData s.tick
    status := decStatus s.dec
    inCount := s.dec.inCount
    outCount := s.dec.outCount }

/-- Output counting: a delivered `Byte` counts, `End` and `Error` do not (R185). -/
def countOut (w : Nat) (t : OutTok) (n : Nat) : Nat :=
  match t with
  | .byte _ => countUp w n
  | .endTok => n
  | .error _ => n

/-- ENC's `result` after a delivery (R186); there is none for an `Error` token, which ENC never outputs (R204). -/
def encResultAfter (t : OutTok) (r : EncResult) : Option EncResult :=
  match t with
  | .byte _ => some r
  | .endTok => some .ok
  | .error _ => none

/-- The `result` an error kind is recorded as (R200). -/
def errResult : ErrKind → DecResult
  | .truncatedRecord => .truncated
  | .invalidControlByte => .invalid

/-- DEC's `result` after a delivery (R186). -/
def decResultAfter (t : OutTok) (r : DecResult) : DecResult :=
  match t with
  | .byte _ => r
  | .endTok => .ok
  | .error e => errResult e

/-- `Deliver` on ENC: the head of `pend` goes to the sink (R184 to R186). With nothing pending nothing changes (R187). -/
def deliverEnc (s : State) : Host.Outcome State Fault Refusal :=
  match s.enc.pend with
  | [] => .next s
  | t :: rest =>
    match encResultAfter t s.enc.result with
    | some r =>
      .next (s.setEnc { s.enc with pend := rest, outCount := countOut s.cntW t s.enc.outCount, result := r }
        (s.encTrace.deliver t))
    | none => .fault .encErrorToken

/-- `Deliver` on DEC: the head of `pend` goes to the sink (R184 to R186). With nothing pending nothing changes (R187). -/
def deliverDec (s : State) : Host.Outcome State Fault Refusal :=
  match s.dec.pend with
  | [] => .next s
  | t :: rest =>
    .next (s.setDec { s.dec with pend := rest, outCount := countOut s.cntW t s.dec.outCount,
                                 result := decResultAfter t s.dec.result }
      (s.decTrace.deliver t))

/-- `Reset` of ENC alone: every field to its reset value; its stream record starts again (R230, R232). -/
def resetEnc (s : State) : State := s.setEnc EncState.reset Trace.empty

/-- `Reset` of DEC alone (R230). -/
def resetDec (s : State) : State := s.setDec DecState.reset Trace.empty

end Sys2Proof.Machine
end

