-- ==== Sys2Proof/Machine/Edge.lean ====
section
/-! DEFINITION. One rising edge of `clk` at each engine: exactly one of `Reset`, `Accept(t)`, `Deliver` and nothing
(R187), and the host's pins for it. -/

namespace Sys2Proof.Machine

/-- All pins 0: the host offers nothing, takes nothing and does not reset. -/
def Pins.idle : Pins := { rst := false, inValid := false, inKind := 0#1, inData := 0x00#8, outReady := false }

/-- The host offers the token word `tw` (R83). -/
def Pins.offer (tw : TokenWord) : Pins :=
  { rst := false, inValid := true, inKind := tw.extractLsb' 8 1, inData := tw.extractLsb' 0 8, outReady := false }

/-- The sink is ready and the host offers nothing. -/
def Pins.take : Pins := { Pins.idle with outReady := true }

/-- The host asserts `rst`. -/
def Pins.reset : Pins := { Pins.idle with rst := true }

/-- The pins of the next edge; all 0 past the end of the list (log entry 2). -/
def State.pinsNow (s : State) : Edge :=
  match s.edges with
  | e :: _ => e
  | [] => { enc := Pins.idle, dec := Pins.idle }

/-- The state in which the next edge's pins have been taken off the list. -/
def State.advance (s : State) : State := { s with edges := s.edges.tail, tick := s.tick + 1 }

/-- `Accept` is enabled: `rst = 0`, `in_valid = 1` and `in_ready = 1` (R180). -/
def acceptEnabled {κ ρ : Type} (p : Pins) (e : Engine κ ρ) : Bool := !p.rst && p.inValid && e.inReady p.rst

/-- `Deliver` is enabled: `rst = 0`, `out_valid = 1` and `out_ready = 1` (R184). -/
def deliverEnabled {κ ρ : Type} (p : Pins) (e : Engine κ ρ) : Bool := !p.rst && p.outReady && e.outValid p.rst

/-- The edge at ENC (R187). -/
def encEdge (p : Pins) (s : State) : Host.Outcome State Fault Refusal :=
  if p.rst then .next (resetEnc s)
  else if acceptEnabled p s.enc then
    match decodeEnc s.enc.core p.tokenWord with
    | .ok i => exec i s
    | .error f => .fault f
  else if deliverEnabled p s.enc then deliverEnc s
  else .next s

/-- The edge at DEC (R187). -/
def decEdge (p : Pins) (s : State) : Host.Outcome State Fault Refusal :=
  if p.rst then .next (resetDec s)
  else if acceptEnabled p s.dec then
    match decodeDec s.dec.core p.tokenWord with
    | .ok i => exec i s
    | .error f => .fault f
  else if deliverEnabled p s.dec then deliverDec s
  else .next s

/-- One edge of `clk` with pins `p`, at both engines. They share no state (R3), so the order in which the two are
written here has no effect (log entry 1). -/
def bothEdges (p : Edge) (s : State) : Host.Outcome State Fault Refusal :=
  match encEdge p.enc s with
  | .next s' => decEdge p.dec s'
  | .fault f => .fault f
  | .refused r => .refused r

/-- The state whose next edge offers the token word `tw` to DEC waiting for a control byte, and gives ENC no input
(log entry 5). -/
def placeControl (tw : TokenWord) (s : State) : State :=
  { s with dec := { s.dec with core := .ctrl, pend := [] },
           edges := { enc := Pins.idle, dec := Pins.offer tw } :: s.edges }

end Sys2Proof.Machine
end

