-- ==== Sys2Proof/Machine/Step.lean ====
section
/-! DEFINITION. The step: one rising edge of `clk` (R187, R189), and how the host places a word for it. -/

namespace Sys2Proof.Machine

/-- One rising edge of `clk`, with the pins the host drives at it. -/
def step (s : State) : Host.Outcome State Fault Refusal := bothEdges s.pinsNow s.advance

/-- `s` with the table word `w` offered at the next edge, to DEC in `Ctrl` with nothing pending (log entry 5). -/
def State.withFetchWord (s : State) (nbits w : Nat) : State := placeControl (tableTokenWord nbits w) s

end Sys2Proof.Machine
end

