-- ==== Sys2Proof/Safety.lean ====
section
/-! DEFINITION. The terms the statements use, written from the spec's tables and not from the meanings: where a row
applies, the two transition tables (R114, R151), the state an `Accept` leaves, records and the streams `ENC` and `DEC`
(R71, R72, R81), and the invariants. -/

namespace Sys2Proof

open Machine

/-! ### Where a row applies -/

/-- The "core" and "guard" columns of R114 and R151, over the legal cores of R22 and R25. -/
def Instr.appliesIn (i : Instr) (s : State) : Bool :=
  match i with
  | .eIdleByte _ | .eEndIdle => decide (s.enc.core = .idle)
  | .eLitCap _ =>
    match s.enc.core with
    | .lit buf => decide (buf.length = 127)
    | _ => false
  | .eLitMatch b =>
    match s.enc.core with
    | .lit buf => decide (1 ≤ buf.length ∧ buf.length < 127 ∧ buf.getLast? = some b)
    | _ => false
  | .eLitAppend b =>
    match s.enc.core with
    | .lit buf => decide (1 ≤ buf.length ∧ buf.length < 127 ∧ buf.getLast? ≠ some b)
    | _ => false
  | .eRunExtend b =>
    match s.enc.core with
    | .run v n => decide (b = v ∧ 2 ≤ n ∧ n < 127)
    | _ => false
  | .eRunCap b =>
    match s.enc.core with
    | .run v n => decide (b = v ∧ n = 127)
    | _ => false
  | .eRunBreak b =>
    match s.enc.core with
    | .run v n => decide (b ≠ v ∧ 2 ≤ n ∧ n ≤ 127)
    | _ => false
  | .eEndLit =>
    match s.enc.core with
    | .lit buf => decide (1 ≤ buf.length ∧ buf.length ≤ 127)
    | _ => false
  | .eEndRun =>
    match s.enc.core with
    | .run _ n => decide (2 ≤ n ∧ n ≤ 127)
    | _ => false
  | .dCtrlRun _ | .dCtrlLit _ | .dCtrlInvalid00 | .dCtrlInvalid01 | .dCtrlInvalid80 | .dEndCtrl =>
    decide (s.dec.core = .ctrl)
  | .dRunvalByte _ | .dEndRunval =>
    match s.dec.core with
    | .runVal n => decide (2 ≤ n ∧ n ≤ 127)
    | _ => false
  | .dLitpayByte _ | .dEndLitpay =>
    match s.dec.core with
    | .litPay r => decide (1 ≤ r ∧ r ≤ 127)
    | _ => false
  | .dDrainByte _ | .dEndDrain => decide (s.dec.core = .drain)

/-! ### The two transition tables -/

/-- The tokens of a literal record: `256 - |p|`, then `p` (R72, R101). -/
def litTokens (p : List Byte) : List OutTok := .byte (BitVec.ofNat 8 (256 - p.length)) :: p.map .byte

/-- The tokens of a run record: `n`, then `v` (R71, R102). -/
def runTokens (n : Nat) (v : Byte) : List OutTok := [.byte (BitVec.ofNat 8 n), .byte v]

/-- ENC's transition table: next core and emitted tokens (R114), with the cap first (R105). -/
def encTable (k : EncCore) (t : InTok) : EncCore × List OutTok :=
  match k, t with
  | .idle, .byte b => (.lit [b], [])
  | .lit buf, .byte b =>
    if buf.length = 127 then (.lit [b], litTokens buf)
    else if buf.getLast? = some b then (.run b 2, if buf.dropLast = [] then [] else litTokens buf.dropLast)
    else (.lit (buf ++ [b]), [])
  | .run v n, .byte b =>
    if b = v then
      if n < 127 then (.run v (n + 1), []) else (.lit [b], runTokens 127 v)
    else (.lit [b], runTokens n v)
  | .idle, .endTok => (.idle, [.endTok])
  | .lit buf, .endTok => (.idle, litTokens buf ++ [.endTok])
  | .run v n, .endTok => (.idle, runTokens n v ++ [.endTok])

/-- DEC's transition table: next core and emitted tokens (R151). -/
def decTable (k : DecCore) (t : InTok) : DecCore × List OutTok :=
  match k, t with
  | .ctrl, .byte c =>
    if 0x02 ≤ c.toNat ∧ c.toNat ≤ 0x7F then (.runVal c.toNat, [])
    else if 0x81 ≤ c.toNat then (.litPay (256 - c.toNat), [])
    else (.drain, [.error .invalidControlByte])
  | .runVal n, .byte v => (.ctrl, List.replicate n (.byte v))
  | .litPay r, .byte b => (if r = 1 then .ctrl else .litPay (r - 1), [.byte b])
  | .drain, .byte _ => (.drain, [])
  | .ctrl, .endTok => (.ctrl, [.endTok])
  | .runVal _, .endTok => (.ctrl, [.error .truncatedRecord])
  | .litPay _, .endTok => (.ctrl, [.error .truncatedRecord])
  | .drain, .endTok => (.ctrl, [])

/-- A table over a sequence of tokens: the core at the end, and what was emitted in acceptance order (R60). -/
def runTable {κ : Type} (table : κ → InTok → κ × List OutTok) : κ → List InTok → κ × List OutTok
  | k, [] => (k, [])
  | k, t :: ts =>
    ((runTable table (table k t).1 ts).1, (table k t).2 ++ (runTable table (table k t).1 ts).2)

/-- The tokens of one invocation: the bytes, then `End` (R12, R183). -/
def invocation (xs : List Byte) : List InTok := xs.map .byte ++ [.endTok]

/-- What ENC delivers for `xs` and `End` (R81): `ENC(xs)`, then the terminator. -/
def encOutputs (xs : List Byte) : List OutTok := (runTable encTable .idle (invocation xs)).2

/-- What DEC delivers for `ys` and `End` (R81): `DEC(ys)`, then the terminator. -/
def decOutputs (ys : List Byte) : List OutTok := (runTable decTable .ctrl (invocation ys)).2

/-- The bytes among output tokens. -/
def bytesOf : List OutTok → List Byte
  | [] => []
  | .byte b :: ts => b :: bytesOf ts
  | .endTok :: ts => bytesOf ts
  | .error _ :: ts => bytesOf ts

/-- `ENC(xs)`: the byte values ENC delivers (R81). -/
def encBytes (xs : List Byte) : List Byte := bytesOf (encOutputs xs)

/-- `DEC(ys)`: the byte values DEC delivers (R81). -/
def decBytes (ys : List Byte) : List Byte := bytesOf (decOutputs ys)

/-! ### The state an `Accept` leaves -/

/-- `Accept(t)` on ENC with nothing pending, by a rule that writes `core` and emits `emitted`: the framing of R181 to
R183, the rule, and everything else as before (R100, R58). -/
def acceptedEnc (s : State) (t : InTok) (core : EncCore) (emitted : List OutTok) : State :=
  { s with
    enc :=
      { core := core
        active := decide (t ≠ .endTok)
        pend := emitted
        inCount := match t with
          | .byte _ => ((if s.enc.active then s.enc.inCount else 0) + 1) % 2 ^ s.cntW
          | .endTok => if s.enc.active then s.enc.inCount else 0
        outCount := if s.enc.active then s.enc.outCount else 0
        result := if s.enc.active then s.enc.result else .none }
    encTrace := { accepted := s.encTrace.accepted ++ [t], delivered := s.encTrace.delivered } }

/-- `Accept(t)` on DEC with nothing pending, by a rule that writes `core` and emits `emitted` (R140, R181 to R183, R58). -/
def acceptedDec (s : State) (t : InTok) (core : DecCore) (emitted : List OutTok) : State :=
  { s with
    dec :=
      { core := core
        active := decide (t ≠ .endTok)
        pend := emitted
        inCount := match t with
          | .byte _ => ((if s.dec.active then s.dec.inCount else 0) + 1) % 2 ^ s.cntW
          | .endTok => if s.dec.active then s.dec.inCount else 0
        outCount := if s.dec.active then s.dec.outCount else 0
        result := if s.dec.active then s.dec.result else .none }
    decTrace := { accepted := s.decTrace.accepted ++ [t], delivered := s.decTrace.delivered } }

/-! ### Records -/

/-- A record of the format (R71, R72). -/
inductive Record where
  | run (n : Nat) (v : Byte)
  | lit (p : List Byte)
  deriving DecidableEq, Repr

/-- The record assembles: count 2..127, length 1..127 (R80). -/
def Record.legal : Record → Bool
  | .run n _ => decide (2 ≤ n ∧ n ≤ 127)
  | .lit p => decide (1 ≤ p.length ∧ p.length ≤ 127)

/-- The bytes of a record (R71, R72, R80). -/
def Record.bytes : Record → List Byte
  | .run n v => [BitVec.ofNat 8 n, v]
  | .lit p => BitVec.ofNat 8 (256 - p.length) :: p

/-- What a record stands for (R71, R72). -/
def Record.expand : Record → List Byte
  | .run n v => List.replicate n v
  | .lit p => p

/-- No two adjacent elements are equal (R22, R121). -/
def adjacentDistinct : List Byte → Bool
  | [] => true
  | [_] => true
  | a :: b :: rest => decide (a ≠ b) && adjacentDistinct (b :: rest)

/-- A record ENC can emit: legal, and a literal without two equal adjacent bytes (R121, R122). -/
def Record.emittable : Record → Bool
  | .run n v => (Record.run n v).legal
  | .lit p => (Record.lit p).legal && adjacentDistinct p

/-- The condition of R124 on two consecutive records. -/
def Record.mayPrecede : Record → Record → Bool
  | .lit a, .lit _ => decide (a.length = 127)
  | .lit a, .run _ w => decide (a.length = 127 ∨ (a.length ≤ 125 ∧ a.getLast? ≠ some w))
  | .run n v, .lit b => decide (b.head? ≠ some v ∨ n = 127)
  | .run n v, .run _ w => decide (w ≠ v ∨ n = 127)

/-- Every two consecutive records meet R124. -/
def adjacencyOk : List Record → Bool
  | [] => true
  | [_] => true
  | a :: b :: rest => a.mayPrecede b && adjacencyOk (b :: rest)

/-- The bytes of a list of records, in order (R79). -/
def recordBytes (rs : List Record) : List Byte := rs.flatMap Record.bytes

/-- The expansions of a list of records, in order. -/
def recordExpansion (rs : List Record) : List Byte := rs.flatMap Record.expand

/-- The held bytes of ENC (R120). -/
def held : EncCore → List Byte
  | .idle => []
  | .lit buf => buf
  | .run v n => List.replicate n v

/-! ### Invariants -/

/-- R22, whole. -/
def encCoreLegal : EncCore → Bool
  | .idle => true
  | .lit buf => decide (1 ≤ buf.length ∧ buf.length ≤ 127) && adjacentDistinct buf
  | .run _ n => decide (2 ≤ n ∧ n ≤ 127)

/-- R25. -/
def decCoreLegal : DecCore → Bool
  | .ctrl => true
  | .runVal n => decide (2 ≤ n ∧ n ≤ 127)
  | .litPay r => decide (1 ≤ r ∧ r ≤ 127)
  | .drain => true

/-- The token is a `Byte`. -/
def isByte : OutTok → Bool
  | .byte _ => true
  | .endTok => false
  | .error _ => false

/-- The token is an `Error`. -/
def isError : OutTok → Bool
  | .byte _ => false
  | .endTok => false
  | .error _ => true

/-- What every state of ENC satisfies between edges, with counters of `w` bits: R22; `active` (R26); the bound and form
of `pend`, with the terminator last and only after `End` (R27, R116, R190); no `Error` (R204); counters in their width
(R28); `result` (R29, R186). -/
abbrev EncInv (w : Nat) (e : EncState) : Prop :=
  encCoreLegal e.core = true ∧ (e.active = false ↔ e.core = .idle) ∧ e.pend.length ≤ 129 ∧
    e.pend.dropLast.all isByte = true ∧ (e.active = true → e.pend.all isByte = true) ∧
    e.pend.any isError = false ∧ e.inCount < 2 ^ w ∧ e.outCount < 2 ^ w ∧
    (e.result = .ok → e.pend = [] ∧ e.active = false)

/-- What every state of DEC satisfies between edges: R25; outside an invocation the core is `Ctrl` (R183); the bound and
form of `pend`, with the terminator last and inside an invocation only in `Drain` (R27, R152, R190); counters in their
width (R28); `result` (R29, R186). -/
abbrev DecInv (w : Nat) (e : DecState) : Prop :=
  decCoreLegal e.core = true ∧ (e.active = false → e.core = .ctrl) ∧ e.pend.length ≤ 127 ∧
    e.pend.dropLast.all isByte = true ∧ (e.active = true → e.core ≠ .drain → e.pend.all isByte = true) ∧
    e.inCount < 2 ^ w ∧ e.outCount < 2 ^ w ∧
    (e.result ≠ .none → e.pend = [] ∧ (e.active = true → e.core = .drain))

/-- The machine's invariant, with `CNT_W >= 1` (R8). -/
abbrev Inv (s : State) : Prop := 1 ≤ s.cntW ∧ EncInv s.cntW s.enc ∧ DecInv s.cntW s.dec

/-- The tokens of the current or most recent invocation, of all tokens accepted: a token after an `End` begins a new
one (R183). -/
def lastInvocation (ts : List InTok) : List InTok :=
  ts.foldl (fun cur t => if cur.getLast? = some .endTok then [t] else cur ++ [t]) []

/-- How many `Byte` tokens there are. -/
def countBytes : List InTok → Nat
  | [] => 0
  | .byte _ :: ts => countBytes ts + 1
  | .endTok :: ts => countBytes ts

/-- The invocation is open: it has begun and its `End` has not been accepted (R26). -/
def openInvocation (ts : List InTok) : Bool := decide (ts ≠ [] ∧ ts.getLast? ≠ some .endTok)

/-- ENC's `result` once all of `outs` is delivered (R186). -/
def encResultOf (outs : List OutTok) : EncResult :=
  match outs.getLast? with
  | some .endTok => .ok
  | _ => .none

/-- DEC's `result` once all of `outs` is delivered (R186, R200). -/
def decResultOf (outs : List OutTok) : DecResult :=
  match outs.getLast? with
  | some .endTok => .ok
  | some (.error .truncatedRecord) => .truncated
  | some (.error .invalidControlByte) => .invalid
  | _ => .none

/-- ENC's record and its streams since Reset agree: the core and the tokens delivered and pending are what R114 gives for
the tokens accepted (R60, R188); what is pending belongs to the current or most recent invocation (R180), and `active`
(R26), the counters (R28) and `result` (R186) are those of it. -/
abbrev EncTraceInv (s : State) : Prop :=
  runTable encTable .idle s.encTrace.accepted = (s.enc.core, s.encTrace.delivered ++ s.enc.pend) ∧
    s.enc.active = openInvocation s.encTrace.accepted ∧
    s.enc.pend <:+ (runTable encTable .idle (lastInvocation s.encTrace.accepted)).2 ∧
    s.enc.inCount = countBytes (lastInvocation s.encTrace.accepted) % 2 ^ s.cntW ∧
    (s.enc.outCount + (bytesOf s.enc.pend).length) % 2 ^ s.cntW =
      (bytesOf (runTable encTable .idle (lastInvocation s.encTrace.accepted)).2).length % 2 ^ s.cntW ∧
    (s.enc.pend = [] → s.enc.result = encResultOf (runTable encTable .idle (lastInvocation s.encTrace.accepted)).2) ∧
    (s.enc.pend ≠ [] → s.enc.result = .none)

/-- DEC's record and its streams since Reset agree, by R151 (R60, R188, R26, R28, R186). -/
abbrev DecTraceInv (s : State) : Prop :=
  runTable decTable .ctrl s.decTrace.accepted = (s.dec.core, s.decTrace.delivered ++ s.dec.pend) ∧
    s.dec.active = openInvocation s.decTrace.accepted ∧
    s.dec.pend <:+ (runTable decTable .ctrl (lastInvocation s.decTrace.accepted)).2 ∧
    s.dec.inCount = countBytes (lastInvocation s.decTrace.accepted) % 2 ^ s.cntW ∧
    (s.dec.outCount + (bytesOf s.dec.pend).length) % 2 ^ s.cntW =
      (bytesOf (runTable decTable .ctrl (lastInvocation s.decTrace.accepted)).2).length % 2 ^ s.cntW ∧
    (s.dec.pend = [] → s.dec.result = decResultOf (runTable decTable .ctrl (lastInvocation s.decTrace.accepted)).2) ∧
    (s.dec.pend ≠ [] → s.dec.result = .none)

/-! ### What one engine sees, and a host that never waits -/

/-- All that ENC and its host side hold: the parameter, ENC's record and streams, and ENC's pins to come. -/
def encView (s : State) : Nat × EncState × Trace × List Pins := (s.cntW, s.enc, s.encTrace, s.edges.map Edge.enc)

/-- All that DEC and its host side hold. -/
def decView (s : State) : Nat × DecState × Trace × List Pins := (s.cntW, s.dec, s.decTrace, s.edges.map Edge.dec)

/-- The token word of a token (R83). -/
def wordOf : InTok → TokenWord
  | .byte b => byteWord b
  | .endTok => endWord

/-- The pins of a host that offers `t` and whose sink is ready. -/
def eagerOffer (t : InTok) : Pins := { Pins.offer (wordOf t) with outReady := true }

/-- The pins while the output of a token is delivered: the host already offers the next token, if there is one. -/
def eagerWait : List InTok → Pins
  | [] => Pins.take
  | t :: _ => eagerOffer t

/-- The pins of a source that always offers its next token and a sink that is always ready, over one edge per input token
and one per output token (R241). -/
def eagerPins {κ : Type} (table : κ → InTok → κ × List OutTok) : κ → List InTok → List Pins
  | _, [] => []
  | k, t :: ts =>
    eagerOffer t :: (List.replicate (table k t).2.length (eagerWait ts) ++ eagerPins table (table k t).1 ts)

/-- A schedule that drives ENC alone. -/
def encOnly (ps : List Pins) : List Edge := ps.map fun p => { enc := p, dec := Pins.idle }

/-- A schedule that drives DEC alone. -/
def decOnly (ps : List Pins) : List Edge := ps.map fun p => { enc := Pins.idle, dec := p }

end Sys2Proof
end

