-- ==== Sys2Proof/Certificates/Slice0/Obligations.lean ====
section
/-! DEFINITION. The statements for the provers. Each docstring names the rule it formalises. A result statement gives the
WHOLE next state (`acceptedEnc`, `acceptedDec`), so it is also the frame of its instruction. -/

open Sys2Proof Sys2Proof.Machine

/-! ### Encodings -/

/-- R83: `in_kind = 0` is `Byte(in_data)`, `in_kind = 1` is `End` whatever `in_data` is, so no decoding depends on it. -/
def Obligations.TokenWordReading : Prop :=
  (∀ b : Byte, tokenOf (0#1 ++ b) = .byte b) ∧ (∀ d : Byte, tokenOf (1#1 ++ d) = .endTok) ∧
    (∀ (k : EncCore) (d d' : Byte), decodeEnc k (1#1 ++ d) = decodeEnc k (1#1 ++ d')) ∧
    (∀ (k : DecCore) (d d' : Byte), decodeDec k (1#1 ++ d) = decodeDec k (1#1 ++ d')) ∧
    (∀ p : Pins, p.tokenWord = p.inKind ++ p.inData)

/-- R70, R73, R74: the class and operand of every control byte, and the control byte of every legal count and length. -/
def Obligations.ControlByteMap : Prop :=
  (∀ c : Byte, ctrlClass c =
    if c.toNat = 0x00 ∨ c.toNat = 0x01 ∨ c.toNat = 0x80 then .invalid
    else if 0x02 ≤ c.toNat ∧ c.toNat ≤ 0x7F then .run c.toNat
    else .lit (256 - c.toNat)) ∧
  (∀ (c : Byte) (n : Nat), ctrlClass c = .run n → s8 c = n ∧ 2 ≤ n ∧ n ≤ 127) ∧
  (∀ (c : Byte) (len : Nat), ctrlClass c = .lit len → s8 c = -(len : Int) ∧ 1 ≤ len ∧ len ≤ 127) ∧
  (∀ n : Nat, 2 ≤ n → n ≤ 127 → (runControl n).toNat = n ∧ ctrlClass (runControl n) = .run n) ∧
  (∀ len : Nat, 1 ≤ len → len ≤ 127 → (litControl len).toNat = 256 - len ∧ ctrlClass (litControl len) = .lit len)

/-- R87 on words written out: in these core states these words run these rows. -/
def Obligations.SampleWordsDecode : Prop :=
  decodeEnc .idle 0b0_01000001#9 = .ok (.eIdleByte 0x41#8) ∧
  decodeEnc (.lit [0x00#8, 0x01#8]) 0b0_00000001#9 = .ok (.eLitMatch 0x01#8) ∧
  decodeEnc (.run 0x01#8 3) 0b0_00101010#9 = .ok (.eRunBreak 0x2A#8) ∧
  decodeEnc (.lit [0x65#8]) 0b1_00000000#9 = .ok .eEndLit ∧
  decodeDec .ctrl 0b0_00000011#9 = .ok (.dCtrlRun 0x03#8) ∧
  decodeDec .ctrl 0b0_11111110#9 = .ok (.dCtrlLit 0xFE#8) ∧
  decodeDec .ctrl 0b0_10000000#9 = .ok .dCtrlInvalid80 ∧
  decodeDec (.runVal 3) 0b0_00000001#9 = .ok (.dRunvalByte 0x01#8) ∧
  decodeDec (.litPay 2) 0b1_00000000#9 = .ok .dEndLitpay

/-- Decode of encode is the instruction, for every well-formed instruction and every state its row applies in (R87). -/
def Obligations.DecodeOfEncode : Prop :=
  ∀ (i : Instr) (s : State), i.wellFormed = true → i.appliesIn s = true →
    decodeAt i.row.engine s (encode i) = .ok i

/-- What decoding answers is right: the engine's own row, well-formed, applying in this state, matching the word by the
table's `match`, `mask` and `excludes`, and with the word's byte as operand (R87). -/
def Obligations.DecodeIsSound : Prop :=
  ∀ (id : EngineId) (s : State) (tw : TokenWord) (i : Instr), decodeAt id s tw = .ok i →
    i.row.engine = id ∧ i.wellFormed = true ∧ i.appliesIn s = true ∧ i.row.matchesWord tw = true ∧
      tokenOf (encode i) = tokenOf tw

/-- R115 with R114: for every legal core of ENC and every token word exactly one row applies, and decoding finds it. -/
def Obligations.EncExactlyOneRow : Prop :=
  ∀ (s : State) (tw : TokenWord), encCoreLegal s.enc.core = true →
    ∃ i : Instr, decodeEnc s.enc.core tw = .ok i ∧
      ∀ j : Instr, (j.row.engine = .enc ∧ j.wellFormed = true ∧ j.appliesIn s = true ∧ j.row.matchesWord tw = true ∧
        tokenOf (encode j) = tokenOf tw) ↔ j = i

/-- R151: for every legal core of DEC and every token word exactly one row applies, and decoding finds it. -/
def Obligations.DecExactlyOneRow : Prop :=
  ∀ (s : State) (tw : TokenWord), decCoreLegal s.dec.core = true →
    ∃ i : Instr, decodeDec s.dec.core tw = .ok i ∧
      ∀ j : Instr, (j.row.engine = .dec ∧ j.wellFormed = true ∧ j.appliesIn s = true ∧ j.row.matchesWord tw = true ∧
        tokenOf (encode j) = tokenOf tw) ↔ j = i

/-! ### The rules of ENC -/

/-- R103. -/
def Obligations.IdleByteOpensLiteral : Prop :=
  ∀ (b : Byte) (s : State), s.enc.core = .idle → s.enc.pend = [] →
    decodeEnc s.enc.core (0#1 ++ b) = .ok (.eIdleByte b) ∧
      exec (.eIdleByte b) s = .next (acceptedEnc s (.byte b) (.lit [b]) []) ∧ (Inv s → s.enc.active = false)

/-- R104: at the cap the literal is flushed whatever `b` is, also when `b` is its last byte. -/
def Obligations.LitCapFlushes : Prop :=
  ∀ (b : Byte) (buf : List Byte) (s : State), s.enc.core = .lit buf → buf.length = 127 → s.enc.pend = [] →
    decodeEnc s.enc.core (0#1 ++ b) = .ok (.eLitCap b) ∧
      exec (.eLitCap b) s = .next (acceptedEnc s (.byte b) (.lit [b]) (.byte 0x81#8 :: buf.map .byte))

/-- R106: below the cap a repeat of the last byte flushes what stands before it, if anything, and starts a run. -/
def Obligations.LitMatchStartsRun : Prop :=
  ∀ (b : Byte) (buf : List Byte) (s : State), s.enc.core = .lit buf → buf.length < 127 → buf.getLast? = some b →
    s.enc.pend = [] →
    decodeEnc s.enc.core (0#1 ++ b) = .ok (.eLitMatch b) ∧
      exec (.eLitMatch b) s = .next (acceptedEnc s (.byte b) (.run b 2)
        (if buf.length = 1 then []
         else .byte (BitVec.ofNat 8 (256 - (buf.length - 1))) :: buf.dropLast.map .byte))

/-- R107: below the cap any other byte is appended. -/
def Obligations.LitAppendGrows : Prop :=
  ∀ (b l : Byte) (buf : List Byte) (s : State), s.enc.core = .lit buf → buf.length < 127 → buf.getLast? = some l →
    b ≠ l → s.enc.pend = [] →
    decodeEnc s.enc.core (0#1 ++ b) = .ok (.eLitAppend b) ∧
      exec (.eLitAppend b) s = .next (acceptedEnc s (.byte b) (.lit (buf ++ [b])) [])

/-- R108. -/
def Obligations.RunExtendCounts : Prop :=
  ∀ (v : Byte) (n : Nat) (s : State), s.enc.core = .run v n → 2 ≤ n → n < 127 → s.enc.pend = [] →
    decodeEnc s.enc.core (0#1 ++ v) = .ok (.eRunExtend v) ∧
      exec (.eRunExtend v) s = .next (acceptedEnc s (.byte v) (.run v (n + 1)) []) ∧ n + 1 ≤ 127

/-- R109: at the cap the run is flushed and its byte starts a literal; so 128 and 129 copies encode as the rule says. -/
def Obligations.RunCapFlushes : Prop :=
  (∀ (v : Byte) (s : State), s.enc.core = .run v 127 → s.enc.pend = [] →
    decodeEnc s.enc.core (0#1 ++ v) = .ok (.eRunCap v) ∧
      exec (.eRunCap v) s = .next (acceptedEnc s (.byte v) (.lit [v]) [.byte 0x7F#8, .byte v])) ∧
  (∀ v : Byte, encBytes (List.replicate 129 v) = [0x7F#8, v, 0x02#8, v] ∧
    encBytes (List.replicate 128 v) = [0x7F#8, v, 0xFF#8, v])

/-- R110: any other byte flushes the run. -/
def Obligations.RunBreakFlushes : Prop :=
  ∀ (b v : Byte) (n : Nat) (s : State), s.enc.core = .run v n → 2 ≤ n → n ≤ 127 → b ≠ v → s.enc.pend = [] →
    decodeEnc s.enc.core (0#1 ++ b) = .ok (.eRunBreak b) ∧
      exec (.eRunBreak b) s =
        .next (acceptedEnc s (.byte b) (.lit [b]) [.byte (BitVec.ofNat 8 n), .byte v])

/-- R111: `End` in `Idle`; when the invocation is empty both counters are 0. -/
def Obligations.EndIdleTerminates : Prop :=
  ∀ (d : Byte) (s : State), s.enc.core = .idle → s.enc.pend = [] →
    decodeEnc s.enc.core (1#1 ++ d) = .ok .eEndIdle ∧
      exec .eEndIdle s = .next (acceptedEnc s .endTok .idle [.endTok]) ∧
      (Inv s → (acceptedEnc s .endTok .idle [.endTok]).enc.inCount = 0 ∧
        (acceptedEnc s .endTok .idle [.endTok]).enc.outCount = 0)

/-- R112: `End` in `Lit` flushes the literal. -/
def Obligations.EndLitFlushes : Prop :=
  ∀ (d : Byte) (buf : List Byte) (s : State), s.enc.core = .lit buf → 1 ≤ buf.length → buf.length ≤ 127 →
    s.enc.pend = [] →
    decodeEnc s.enc.core (1#1 ++ d) = .ok .eEndLit ∧
      exec .eEndLit s = .next (acceptedEnc s .endTok .idle
        (.byte (BitVec.ofNat 8 (256 - buf.length)) :: buf.map .byte ++ [.endTok]))

/-- R113: `End` in `Run` flushes the run. -/
def Obligations.EndRunFlushes : Prop :=
  ∀ (d v : Byte) (n : Nat) (s : State), s.enc.core = .run v n → 2 ≤ n → n ≤ 127 → s.enc.pend = [] →
    decodeEnc s.enc.core (1#1 ++ d) = .ok .eEndRun ∧
      exec .eEndRun s = .next (acceptedEnc s .endTok .idle [.byte (BitVec.ofNat 8 n), .byte v, .endTok])

/-! ### The rules of DEC -/

/-- R141. -/
def Obligations.CtrlRunRead : Prop :=
  ∀ (c : Byte) (s : State), s.dec.core = .ctrl → 0x02 ≤ c.toNat → c.toNat ≤ 0x7F → s.dec.pend = [] →
    decodeDec s.dec.core (0#1 ++ c) = .ok (.dCtrlRun c) ∧
      exec (.dCtrlRun c) s = .next (acceptedDec s (.byte c) (.runVal c.toNat) [])

/-- R142. -/
def Obligations.CtrlLitRead : Prop :=
  ∀ (c : Byte) (s : State), s.dec.core = .ctrl → 0x81 ≤ c.toNat → s.dec.pend = [] →
    decodeDec s.dec.core (0#1 ++ c) = .ok (.dCtrlLit c) ∧
      exec (.dCtrlLit c) s = .next (acceptedDec s (.byte c) (.litPay (256 - c.toNat)) []) ∧
      1 ≤ 256 - c.toNat ∧ 256 - c.toNat ≤ 127

/-- R143 with R201: each of the three invalid control bytes raises `InvalidControlByte`, and the rest of the invocation
is consumed without output. -/
def Obligations.InvalidControlRaises : Prop :=
  (∀ s : State, s.dec.core = .ctrl → s.dec.pend = [] →
    (decodeDec s.dec.core (0#1 ++ 0x00#8) = .ok .dCtrlInvalid00 ∧
      exec .dCtrlInvalid00 s = .next (acceptedDec s (.byte 0x00#8) .drain [.error .invalidControlByte])) ∧
    (decodeDec s.dec.core (0#1 ++ 0x01#8) = .ok .dCtrlInvalid01 ∧
      exec .dCtrlInvalid01 s = .next (acceptedDec s (.byte 0x01#8) .drain [.error .invalidControlByte])) ∧
    (decodeDec s.dec.core (0#1 ++ 0x80#8) = .ok .dCtrlInvalid80 ∧
      exec .dCtrlInvalid80 s = .next (acceptedDec s (.byte 0x80#8) .drain [.error .invalidControlByte]))) ∧
  (∀ ys : List Byte, runTable decTable .drain (invocation ys) = (.ctrl, []))

/-- R144: the value byte emits the whole run. -/
def Obligations.RunValueEmitsRun : Prop :=
  ∀ (v : Byte) (n : Nat) (s : State), s.dec.core = .runVal n → 2 ≤ n → n ≤ 127 → s.dec.pend = [] →
    decodeDec s.dec.core (0#1 ++ v) = .ok (.dRunvalByte v) ∧
      exec (.dRunvalByte v) s = .next (acceptedDec s (.byte v) .ctrl (List.replicate n (.byte v)))

/-- R145: a payload byte passes through. -/
def Obligations.LitPayloadPasses : Prop :=
  ∀ (b : Byte) (r : Nat) (s : State), s.dec.core = .litPay r → 1 ≤ r → r ≤ 127 → s.dec.pend = [] →
    decodeDec s.dec.core (0#1 ++ b) = .ok (.dLitpayByte b) ∧
      exec (.dLitpayByte b) s =
        .next (acceptedDec s (.byte b) (if r = 1 then .ctrl else .litPay (r - 1)) [.byte b])

/-- R146: a byte in `Drain` is counted and discarded. -/
def Obligations.DrainDiscards : Prop :=
  ∀ (b : Byte) (s : State), s.dec.core = .drain → s.dec.pend = [] →
    decodeDec s.dec.core (0#1 ++ b) = .ok (.dDrainByte b) ∧
      exec (.dDrainByte b) s = .next (acceptedDec s (.byte b) .drain [])

/-- R147. -/
def Obligations.EndCtrlTerminates : Prop :=
  ∀ (d : Byte) (s : State), s.dec.core = .ctrl → s.dec.pend = [] →
    decodeDec s.dec.core (1#1 ++ d) = .ok .dEndCtrl ∧
      exec .dEndCtrl s = .next (acceptedDec s .endTok .ctrl [.endTok])

/-- R148: `End` before a run's value byte raises `TruncatedRecord`; the run emits nothing. -/
def Obligations.EndRunvalRaises : Prop :=
  ∀ (d : Byte) (n : Nat) (s : State), s.dec.core = .runVal n → 2 ≤ n → n ≤ 127 → s.dec.pend = [] →
    decodeDec s.dec.core (1#1 ++ d) = .ok .dEndRunval ∧
      exec .dEndRunval s = .next (acceptedDec s .endTok .ctrl [.error .truncatedRecord])

/-- R149: `End` inside a literal's payload raises `TruncatedRecord`; what was delivered stays delivered. -/
def Obligations.EndLitpayRaises : Prop :=
  ∀ (d : Byte) (r : Nat) (s : State), s.dec.core = .litPay r → 1 ≤ r → r ≤ 127 → s.dec.pend = [] →
    decodeDec s.dec.core (1#1 ++ d) = .ok .dEndLitpay ∧
      exec .dEndLitpay s = .next (acceptedDec s .endTok .ctrl [.error .truncatedRecord])

/-- R150: `End` in `Drain` ends the invocation without output and without a second error. -/
def Obligations.EndDrainLeaves : Prop :=
  ∀ (d : Byte) (s : State), s.dec.core = .drain → s.dec.pend = [] →
    decodeDec s.dec.core (1#1 ++ d) = .ok .dEndDrain ∧
      exec .dEndDrain s = .next (acceptedDec s .endTok .ctrl [])

/-! ### All rows at once -/

/-- R114: whatever row ENC decodes, its meaning does what the transition table says, with the framing of R181 to R183. -/
def Obligations.EncRunsItsTable : Prop :=
  ∀ (s : State) (tw : TokenWord) (i : Instr), s.enc.pend = [] → decodeEnc s.enc.core tw = .ok i →
    exec i s = .next (acceptedEnc s (tokenOf tw) (encTable s.enc.core (tokenOf tw)).1
      (encTable s.enc.core (tokenOf tw)).2)

/-- R151: whatever row DEC decodes, its meaning does what the transition table says, with the framing of R181 to R183. -/
def Obligations.DecRunsItsTable : Prop :=
  ∀ (s : State) (tw : TokenWord) (i : Instr), s.dec.pend = [] → decodeDec s.dec.core tw = .ok i →
    exec i s = .next (acceptedDec s (tokenOf tw) (decTable s.dec.core (tokenOf tw)).1
      (decTable s.dec.core (tokenOf tw)).2)

/-- Every row of ENC or DEC completes exactly where it applies. That it is refused elsewhere is the MODEL'S CHOICE (log
entry 6): the spec gives a rule no effect outside its "Applies in". -/
def Obligations.RowsCompleteExactlyWhereTheyApply : Prop :=
  ∀ (i : Instr) (s : State), (i.row.engine = .enc → s.enc.pend = []) → (i.row.engine = .dec → s.dec.pend = []) →
    if i.wellFormed = true ∧ i.appliesIn s = true then ∃ t, exec i s = .next t
    else exec i s = .refused .ruleNotApplicable

/-- R58 for ENC's ten rows: DEC, the schedule and the delivered stream are untouched, and inside an invocation the
output counter and the result are. The last clause, that a row called while output is pending (applying or not) answers
the unchanged state, is the MODEL'S CHOICE (log entry 6, DEDUCED from R180). -/
def Obligations.EncRowsFrame : Prop :=
  ∀ (i : Instr) (s t : State), i.row.engine = .enc → exec i s = .next t →
    t.cntW = s.cntW ∧ t.dec = s.dec ∧ t.decTrace = s.decTrace ∧ t.edges = s.edges ∧ t.tick = s.tick ∧
      t.encTrace.delivered = s.encTrace.delivered ∧
      (s.enc.active = true → t.enc.outCount = s.enc.outCount ∧ t.enc.result = s.enc.result) ∧
      (s.enc.active = true → tokenOf (encode i) = .endTok → t.enc.inCount = s.enc.inCount) ∧
      (s.enc.pend ≠ [] → t = s)

/-- R58 for DEC's twelve rows. The last clause, that a row called while output is pending (applying or not) answers the
unchanged state, is the MODEL'S CHOICE (log entry 6, DEDUCED from R180). -/
def Obligations.DecRowsFrame : Prop :=
  ∀ (i : Instr) (s t : State), i.row.engine = .dec → exec i s = .next t →
    t.cntW = s.cntW ∧ t.enc = s.enc ∧ t.encTrace = s.encTrace ∧ t.edges = s.edges ∧ t.tick = s.tick ∧
      t.decTrace.delivered = s.decTrace.delivered ∧
      (s.dec.active = true → t.dec.outCount = s.dec.outCount ∧ t.dec.result = s.dec.result) ∧
      (s.dec.active = true → tokenOf (encode i) = .endTok → t.dec.inCount = s.dec.inCount) ∧
      (s.dec.pend ≠ [] → t = s)

/-! ### Ports, steps and reset -/

/-- R31: the handshake signals of both engines, the token shown while `out_valid = 1`, and never both ready and valid.
The last clause is R189's on outputs: the host's pins stand in `State.edges`, and no output of either engine depends on
them. -/
def Obligations.HandshakeSignals : Prop :=
  ∀ (s : State) (rst : Bool),
    ((encPort rst s).inReady = decide (s.enc.pend = [] ∧ rst = false) ∧
      (encPort rst s).outValid = decide (s.enc.pend ≠ [] ∧ rst = false) ∧
      ((encPort rst s).outValid = true → ∃ t rest, s.enc.pend = t :: rest ∧
        (encPort rst s).outKind = outKindOf t ∧ (encPort rst s).outData = outDataOf t) ∧
      ¬ ((encPort rst s).inReady = true ∧ (encPort rst s).outValid = true)) ∧
    ((decPort rst s).inReady = decide (s.dec.pend = [] ∧ rst = false) ∧
      (decPort rst s).outValid = decide (s.dec.pend ≠ [] ∧ rst = false) ∧
      ((decPort rst s).outValid = true → ∃ t rest, s.dec.pend = t :: rest ∧
        (decPort rst s).outKind = outKindOf t ∧ (decPort rst s).outData = outDataOf t) ∧
      ¬ ((decPort rst s).inReady = true ∧ (decPort rst s).outValid = true)) ∧
    (∀ es : List Edge, encPort rst { s with edges := es } = encPort rst s ∧
      decPort rst { s with edges := es } = decPort rst s)

/-- R85 and R200: the pins for each kind of output token, on DEC and on ENC; kind `11` is not driven while valid; ENC
shows no error. -/
def Obligations.OutputTokenEncoding : Prop :=
  (∀ (s : State) (t : OutTok) (rest : List OutTok), s.dec.pend = t :: rest →
    ((decPort false s).outKind, (decPort false s).outData) =
      (match t with
       | .byte b => (0b00#2, b)
       | .endTok => (0b01#2, 0x00#8)
       | .error .truncatedRecord => (0b10#2, 0x02#8)
       | .error .invalidControlByte => (0b10#2, 0x03#8)) ∧ (decPort false s).outKind ≠ 0b11#2) ∧
  (∀ (s : State) (b : Byte) (rest : List OutTok), s.enc.pend = .byte b :: rest →
    ((encPort false s).outKind, (encPort false s).outData) = (0b00#2, b)) ∧
  (∀ (s : State) (rest : List OutTok), s.enc.pend = .endTok :: rest →
    ((encPort false s).outKind, (encPort false s).outData) = (0b01#2, 0x00#8)) ∧
  (∀ s : State, Inv s → (encPort false s).outValid = true →
    (encPort false s).outKind ≠ 0b11#2 ∧ (encPort false s).outKind ≠ 0b10#2)

/-- R86: every field of both status words, from the state alone; after reset they are `0x00`. The counter pins of R84
carry each engine's own counters, whatever `rst` is. -/
def Obligations.StatusWordLayout : Prop :=
  (∀ e : EncState,
    (encStatus e).extractLsb' 0 2 = (match e.core with | .idle => 0b00#2 | .lit _ => 0b01#2 | .run _ _ => 0b10#2) ∧
    (encStatus e).getLsbD 2 = e.active ∧ (encStatus e).getLsbD 3 = decide (e.pend ≠ []) ∧
    (encStatus e).extractLsb' 4 2 = (match e.result with | .none => 0b00#2 | .ok => 0b01#2) ∧
    (encStatus e).extractLsb' 6 2 = 0b00#2) ∧
  (∀ e : DecState,
    (decStatus e).extractLsb' 0 2 =
      (match e.core with | .ctrl => 0b00#2 | .runVal _ => 0b01#2 | .litPay _ => 0b10#2 | .drain => 0b11#2) ∧
    (decStatus e).getLsbD 2 = e.active ∧ (decStatus e).getLsbD 3 = decide (e.pend ≠ []) ∧
    (decStatus e).extractLsb' 4 2 =
      (match e.result with | .none => 0b00#2 | .ok => 0b01#2 | .truncated => 0b10#2 | .invalid => 0b11#2) ∧
    (decStatus e).extractLsb' 6 2 = 0b00#2) ∧
  (∀ (s : State) (rst : Bool), (encPort rst s).status = encStatus s.enc ∧ (decPort rst s).status = decStatus s.dec) ∧
  (∀ (s : State) (rst : Bool),
    (encPort rst s).inCount = s.enc.inCount ∧ (encPort rst s).outCount = s.enc.outCount ∧
    (decPort rst s).inCount = s.dec.inCount ∧ (decPort rst s).outCount = s.dec.outCount) ∧
  encStatus State.reset.enc = 0x00#8 ∧ decStatus State.reset.dec = 0x00#8

/-- A step runs the decoded instruction: of ENC alone, of DEC alone, and of both at one edge (R180, R100, R140). -/
def Obligations.StepRunsDecoded : Prop :=
  ∀ (s : State) (i j : Instr),
    (s.pinsNow.enc.rst = false → s.pinsNow.enc.inValid = true → s.enc.pend = [] →
      decodeEnc s.enc.core (s.pinsNow.enc.inKind ++ s.pinsNow.enc.inData) = .ok i →
      s.pinsNow.dec.rst = false → s.pinsNow.dec.inValid = false → s.pinsNow.dec.outReady = false →
      step s = exec i { s with edges := s.edges.tail, tick := s.tick + 1 }) ∧
    (s.pinsNow.dec.rst = false → s.pinsNow.dec.inValid = true → s.dec.pend = [] →
      decodeDec s.dec.core (s.pinsNow.dec.inKind ++ s.pinsNow.dec.inData) = .ok j →
      s.pinsNow.enc.rst = false → s.pinsNow.enc.inValid = false → s.pinsNow.enc.outReady = false →
      step s = exec j { s with edges := s.edges.tail, tick := s.tick + 1 }) ∧
    (s.pinsNow.enc.rst = false → s.pinsNow.enc.inValid = true → s.enc.pend = [] →
      decodeEnc s.enc.core (s.pinsNow.enc.inKind ++ s.pinsNow.enc.inData) = .ok i →
      s.pinsNow.dec.rst = false → s.pinsNow.dec.inValid = true → s.dec.pend = [] →
      decodeDec s.dec.core (s.pinsNow.dec.inKind ++ s.pinsNow.dec.inData) = .ok j →
      step s = match exec i { s with edges := s.edges.tail, tick := s.tick + 1 } with
        | .next s' => exec j s'
        | .fault f => .fault f
        | .refused r => .refused r)

/-- A word placed by `withFetchWord` is what the next step runs (the MODEL'S CHOICE of where a bare word goes: log
entry 5). -/
def Obligations.PlacedWordRuns : Prop :=
  ∀ (s : State) (nbits w : Nat) (i : Instr), decodeTableWord nbits w = some i →
    step (s.withFetchWord nbits w) =
      exec i { s with dec := { s.dec with core := .ctrl, pend := [] }, tick := s.tick + 1 }

/-- With output pending no token is accepted. That at an edge without `rst` and `out_ready` the engine does not change,
whatever the other does, is R180's (the last two clauses). That `exec` of any row, also one that does not apply, answers
the unchanged state (the first two) is the MODEL'S CHOICE (log entry 6, DEDUCED from R180). -/
def Obligations.PendingOutputBlocksInput : Prop :=
  ∀ (s : State) (i : Instr),
    (s.enc.pend ≠ [] → i.row.engine = .enc → exec i s = .next s) ∧
    (s.dec.pend ≠ [] → i.row.engine = .dec → exec i s = .next s) ∧
    (s.enc.pend ≠ [] → s.pinsNow.enc.rst = false → s.pinsNow.enc.outReady = false →
      step s = decEdge s.pinsNow.dec { s with edges := s.edges.tail, tick := s.tick + 1 }) ∧
    (s.dec.pend ≠ [] → s.pinsNow.dec.rst = false → s.pinsNow.dec.outReady = false →
      step s = encEdge s.pinsNow.enc { s with edges := s.edges.tail, tick := s.tick + 1 })

/-- R184, R185, R186 for ENC, at a step, whatever DEC does at the same edge. An `Error` token, which R204 says ENC never
outputs, stops the machine: the MODEL'S CHOICE (log entry 7), in states that no run reaches. -/
def Obligations.DeliverFromEnc : Prop :=
  ∀ (s : State) (t : OutTok) (rest : List OutTok), s.pinsNow.enc.rst = false → s.pinsNow.enc.outReady = true →
    s.enc.pend = t :: rest →
    (isError t = false → step s = decEdge s.pinsNow.dec
      { s with
        edges := s.edges.tail, tick := s.tick + 1,
        enc := { s.enc with
          pend := rest,
          outCount := if isByte t then (s.enc.outCount + 1) % 2 ^ s.cntW else s.enc.outCount,
          result := if t = .endTok then .ok else s.enc.result },
        encTrace := { s.encTrace with delivered := s.encTrace.delivered ++ [t] } }) ∧
    (isError t = true → step s = .fault .encErrorToken)

/-- R184, R185, R186 for DEC, at a step, after whatever ENC does at the same edge (R3). -/
def Obligations.DeliverFromDec : Prop :=
  ∀ (s s' : State) (t : OutTok) (rest : List OutTok), s.pinsNow.dec.rst = false → s.pinsNow.dec.outReady = true →
    s.dec.pend = t :: rest →
    encEdge s.pinsNow.enc { s with edges := s.edges.tail, tick := s.tick + 1 } = .next s' →
    step s = .next
      { s' with
        dec := { s.dec with
          pend := rest,
          outCount := if isByte t then (s.dec.outCount + 1) % 2 ^ s.cntW else s.dec.outCount,
          result := match t with
            | .byte _ => s.dec.result
            | .endTok => .ok
            | .error .truncatedRecord => .truncated
            | .error .invalidControlByte => .invalid },
        decTrace := { s.decTrace with delivered := s.decTrace.delivered ++ [t] } }

/-- R187: at one edge an engine never both accepts and delivers, with `rst` it does neither, and when none of the three
is enabled it does not change. -/
def Obligations.OneActionPerEdge : Prop :=
  (∀ (p : Pins) (e : EncState), ¬ (acceptEnabled p e = true ∧ deliverEnabled p e = true)) ∧
  (∀ (p : Pins) (e : DecState), ¬ (acceptEnabled p e = true ∧ deliverEnabled p e = true)) ∧
  (∀ (p : Pins) (s : State), p.rst = true →
    acceptEnabled p s.enc = false ∧ deliverEnabled p s.enc = false ∧ acceptEnabled p s.dec = false ∧
      deliverEnabled p s.dec = false) ∧
  (∀ (p : Pins) (s : State), p.rst = false → acceptEnabled p s.enc = false → deliverEnabled p s.enc = false →
    encEdge p s = .next s) ∧
  (∀ (p : Pins) (s : State), p.rst = false → acceptEnabled p s.dec = false → deliverEnabled p s.dec = false →
    decEdge p s = .next s)

/-- R230: at an edge with `rst = 1` the engine takes its reset values from every state, before any transfer, and only
that engine does. That its stream record starts again is the MODEL'S (log entry 4). -/
def Obligations.ResetEdge : Prop :=
  (∀ s : State, s.pinsNow.enc.rst = true →
    step s = decEdge s.pinsNow.dec
      { s with
        edges := s.edges.tail, tick := s.tick + 1,
        enc := { core := .idle, active := false, pend := [], inCount := 0, outCount := 0, result := .none },
        encTrace := { accepted := [], delivered := [] } }) ∧
  (∀ s s' : State, s.pinsNow.dec.rst = true →
    encEdge s.pinsNow.enc { s with edges := s.edges.tail, tick := s.tick + 1 } = .next s' →
    step s = .next
      { s' with
        dec := { core := .ctrl, active := false, pend := [], inCount := 0, outCount := 0, result := .none },
        decTrace := { accepted := [], delivered := [] } })

/-- The state after reset (R38), for the default width and every other (R8), and its status words. -/
def Obligations.ResetState : Prop :=
  (∀ w : Nat, (State.resetWith w).cntW = w ∧
    (State.resetWith w).enc =
      { core := .idle, active := false, pend := [], inCount := 0, outCount := 0, result := .none } ∧
    (State.resetWith w).dec =
      { core := .ctrl, active := false, pend := [], inCount := 0, outCount := 0, result := .none }) ∧
  State.reset = State.resetWith 32 ∧
  (encPort false State.reset).status = 0x00#8 ∧ (decPort false State.reset).status = 0x00#8 ∧
  (encPort false State.reset).inReady = true ∧ (decPort false State.reset).inReady = true ∧
  (encPort false State.reset).outValid = false ∧ (decPort false State.reset).outValid = false

/-- R51, R52, R57: without `rst` an engine's streams only grow at their ends, by at most one token an edge over both. -/
def Obligations.StreamsAppendOnly : Prop :=
  ∀ s t : State, step s = .next t →
    (s.pinsNow.enc.rst = false → ∃ (xs : List InTok) (ys : List OutTok),
      t.encTrace.accepted = s.encTrace.accepted ++ xs ∧ t.encTrace.delivered = s.encTrace.delivered ++ ys ∧
        xs.length + ys.length ≤ 1) ∧
    (s.pinsNow.dec.rst = false → ∃ (xs : List InTok) (ys : List OutTok),
      t.decTrace.accepted = s.decTrace.accepted ++ xs ∧ t.decTrace.delivered = s.decTrace.delivered ++ ys ∧
        xs.length + ys.length ≤ 1) ∧
    t.cntW = s.cntW ∧ t.edges = s.edges.tail

/-! ### Invariants -/

/-- Every invariant holds after reset, for every counter width of at least 1. -/
def Obligations.ResetMeetsInvariants : Prop :=
  ∀ w : Nat, 1 ≤ w → Inv (State.resetWith w) ∧ EncTraceInv (State.resetWith w) ∧ DecTraceInv (State.resetWith w)

/-- R22, R25, R26, R27, R28, R116, R152, R204: every step keeps the invariant, from every state that meets it. -/
def Obligations.StepKeepsInv : Prop :=
  ∀ s t : State, Inv s → step s = .next t → Inv t

/-- R115, R151: from a state that meets the invariant no edge stops the machine, whatever the host drives. -/
def Obligations.InvNeverStops : Prop :=
  ∀ s : State, Inv s → ∃ t, step s = .next t

/-- R188, R60, R26, R28, R186 for ENC: what was delivered and is pending is what R114 gives for what was accepted, and
`active`, the counters and `result` are those of the invocation; every step keeps it. -/
def Obligations.StepKeepsEncTrace : Prop :=
  ∀ s t : State, EncTraceInv s → step s = .next t → EncTraceInv t

/-- R188, R60, R26, R28, R186 for DEC. -/
def Obligations.StepKeepsDecTrace : Prop :=
  ∀ s t : State, DecTraceInv s → step s = .next t → DecTraceInv t

/-! ### The two engines -/

/-- R3, R61: what ENC does at an edge does not depend on DEC's state or pins, nor DEC on ENC's. -/
def Obligations.EnginesIndependent : Prop :=
  ∀ s₁ s₂ t₁ t₂ : State, step s₁ = .next t₁ → step s₂ = .next t₂ →
    (encView s₁ = encView s₂ → encView t₁ = encView t₂) ∧ (decView s₁ = decView s₂ → decView t₁ = decView t₂)

/-- R3: the two engines' parts of an edge give the same state in either order. -/
def Obligations.EdgeOrderImmaterial : Prop :=
  ∀ (p : Edge) (s t : State),
    (bothEdges p s = .next t ↔ ∃ s', decEdge p.dec s = .next s' ∧ encEdge p.enc s' = .next t)

/-! ### Streams -/

/-- R120, R121, R122: between the bytes of an invocation, the bytes accepted are the expansions of the records emitted,
all of them legal and without an equal adjacent pair in a literal, followed by the held bytes, at most 127. -/
def Obligations.HeldBytesComplete : Prop :=
  ∀ xs : List Byte, ∃ rs : List Record,
    (∀ r ∈ rs, r.emittable = true) ∧
    (runTable encTable .idle (xs.map .byte)).2 = (recordBytes rs).map .byte ∧
    recordExpansion rs ++ held (runTable encTable .idle (xs.map .byte)).1 = xs ∧
    (held (runTable encTable .idle (xs.map .byte)).1).length ≤ 127

/-- R190: every invocation delivers bytes and then exactly one terminator, `End` for ENC, and for DEC `End` or one of
the two errors. -/
def Obligations.OneTerminator : Prop :=
  (∀ xs : List Byte, ∃ bs : List Byte, encOutputs xs = bs.map .byte ++ [.endTok]) ∧
  (∀ ys : List Byte, ∃ (bs : List Byte) (t : OutTok), decOutputs ys = bs.map .byte ++ [t] ∧
    (t = .endTok ∨ t = .error .truncatedRecord ∨ t = .error .invalidControlByte))

/-- R161: every concatenation of legal records decodes to the concatenation of their expansions. -/
def Obligations.DecAcceptsLegalRecords : Prop :=
  ∀ rs : List Record, (∀ r ∈ rs, r.legal = true) →
    decOutputs (recordBytes rs) = (recordExpansion rs).map .byte ++ [.endTok]

/-- R153: the output before an error: complete records whole, the received bytes of an unfinished literal, then the
error; after an invalid control byte the rest gives nothing. -/
def Obligations.DecErrorOutputs : Prop :=
  ∀ rs : List Record, (∀ r ∈ rs, r.legal = true) →
    (∀ (c : Byte) (junk : List Byte), (c = 0x00#8 ∨ c = 0x01#8 ∨ c = 0x80#8) →
      decOutputs (recordBytes rs ++ c :: junk) =
        (recordExpansion rs).map .byte ++ [.error .invalidControlByte]) ∧
    (∀ n : Nat, 2 ≤ n → n ≤ 127 →
      decOutputs (recordBytes rs ++ [BitVec.ofNat 8 n]) =
        (recordExpansion rs).map .byte ++ [.error .truncatedRecord]) ∧
    (∀ (len : Nat) (p : List Byte), p.length < len → len ≤ 127 →
      decOutputs (recordBytes rs ++ BitVec.ofNat 8 (256 - len) :: p) =
        (recordExpansion rs ++ p).map .byte ++ [.error .truncatedRecord])

/-- R160, R123: decoding what ENC emits gives the input and `End`, so re-encoding a canonical stream gives it back; for
a stream that is not canonical it need not. -/
def Obligations.RoundTrip : Prop :=
  (∀ x : List Byte, decOutputs (encBytes x) = x.map .byte ++ [.endTok]) ∧
  (∀ y : List Byte, (∃ x, y = encBytes x) → encBytes (decBytes y) = y) ∧
  decOutputs [0xFF#8, 0x05#8, 0xFF#8, 0x05#8] = [.byte 0x05#8, .byte 0x05#8, .endTok] ∧
  encBytes [0x05#8, 0x05#8] = [0x02#8, 0x05#8]

/-- A byte stream is canonical exactly when it is records that ENC can emit and consecutive ones meet the adjacency
conditions. From canonical to adjacent is R124's rule. From adjacent to canonical is R124's own inference, not a rule of
the spec: "Sufficiency (every stream of legal records meeting these conditions is canonical) was checked by executing the
rules on 200,000 random record streams. It is not proved". -/
def Obligations.CanonicalStreams : Prop :=
  ∀ y : List Byte, (∃ x, y = encBytes x) ↔
    ∃ rs : List Record, (∀ r ∈ rs, r.emittable = true) ∧ adjacencyOk rs = true ∧ y = recordBytes rs

/-! ### Whole invocations on the machine -/

/-- R241, R192 for ENC: with a source that always offers and a sink that is always ready, an invocation of `I` input and
`O` output tokens takes exactly `I + O` edges, delivers `ENC(xs)` and `End`, and leaves the report. -/
def Obligations.EncInvocationRuns : Prop :=
  ∀ (s : State) (xs : List Byte) (rest : List Edge), s.enc.core = .idle → s.enc.active = false → s.enc.pend = [] →
    s.edges = encOnly (eagerPins encTable .idle (invocation xs)) ++ rest →
    Host.Core.run core ((invocation xs).length + (encOutputs xs).length) s = .next
      { s with
        enc := { core := .idle, active := false, pend := [], inCount := xs.length % 2 ^ s.cntW,
                 outCount := (encBytes xs).length % 2 ^ s.cntW, result := .ok },
        encTrace := { accepted := s.encTrace.accepted ++ invocation xs,
                      delivered := s.encTrace.delivered ++ encOutputs xs },
        edges := rest, tick := s.tick + ((invocation xs).length + (encOutputs xs).length) }

/-- R241, R192 for DEC, whether the stream is well-formed or not. -/
def Obligations.DecInvocationRuns : Prop :=
  ∀ (s : State) (ys : List Byte) (rest : List Edge), s.dec.core = .ctrl → s.dec.active = false → s.dec.pend = [] →
    s.edges = decOnly (eagerPins decTable .ctrl (invocation ys)) ++ rest →
    Host.Core.run core ((invocation ys).length + (decOutputs ys).length) s = .next
      { s with
        dec := { core := .ctrl, active := false, pend := [], inCount := ys.length % 2 ^ s.cntW,
                 outCount := (decBytes ys).length % 2 ^ s.cntW, result := decResultOf (decOutputs ys) },
        decTrace := { accepted := s.decTrace.accepted ++ invocation ys,
                      delivered := s.decTrace.delivered ++ decOutputs ys },
        edges := rest, tick := s.tick + ((invocation ys).length + (decOutputs ys).length) }

/-- R160 on the machine: when ENC has taken `x` and `End` and DEC has taken exactly the tokens ENC delivered, DEC's sink
has `x` and `End`, and DEC's result is OK. -/
def Obligations.MachineRoundTrip : Prop :=
  ∀ (s : State) (x : List Byte), EncTraceInv s → DecTraceInv s →
    s.encTrace.accepted = invocation x → s.enc.pend = [] →
    s.decTrace.accepted = invocation (bytesOf s.encTrace.delivered) → s.dec.pend = [] →
    s.encTrace.delivered = (encBytes x).map .byte ++ [.endTok] ∧
      s.decTrace.delivered = x.map .byte ++ [.endTok] ∧ s.enc.result = .ok ∧ s.dec.result = .ok
end

