-- ==== Sys2Proof/Laws/Flags.lean ====
section
/-! SUPPORT. The tests of the rules as propositions, with the format's numbers (R7). -/

namespace Sys2Proof.Machine

@[simp] theorem litLegal_iff (buf : List Byte) : litLegal buf = true ↔ 1 ≤ buf.length ∧ buf.length ≤ 127 := by
  unfold litLegal; exact decide_eq_true_iff

@[simp] theorem litFull_iff (buf : List Byte) : litFull buf = true ↔ buf.length = 127 := by
  unfold litFull; exact decide_eq_true_iff

@[simp] theorem litOpen_iff (buf : List Byte) : litOpen buf = true ↔ 1 ≤ buf.length ∧ buf.length < 127 := by
  unfold litOpen; exact decide_eq_true_iff

@[simp] theorem matchesLast_iff (b : Byte) (buf : List Byte) : matchesLast b buf = true ↔ buf.getLast? = some b := by
  unfold matchesLast; exact decide_eq_true_iff

@[simp] theorem runLegal_iff (n : Nat) : runLegal n = true ↔ 2 ≤ n ∧ n ≤ 127 := by
  unfold runLegal; exact decide_eq_true_iff

@[simp] theorem runOpen_iff (n : Nat) : runOpen n = true ↔ 2 ≤ n ∧ n < 127 := by
  unfold runOpen; exact decide_eq_true_iff

@[simp] theorem runFull_iff (n : Nat) : runFull n = true ↔ n = 127 := by
  unfold runFull; exact decide_eq_true_iff

@[simp] theorem payLegal_iff (r : Nat) : payLegal r = true ↔ 1 ≤ r ∧ r ≤ 127 := by
  unfold payLegal; exact decide_eq_true_iff

end Sys2Proof.Machine
end

