-- ==== Sys2Proof/Laws/State.lean ====
section
/-! SUPPORT. One lemma per field of each update of the state and of an engine's record, so that no proof unfolds a record
update. -/

namespace Sys2Proof.Machine

section EngineFields
variable {κ ρ : Type} (k : κ) (r : ρ) (w : Nat) (t : InTok) (ts : List OutTok) (e : Engine κ ρ)

@[simp] theorem Engine.goto_core : (e.goto k).core = k := rfl
@[simp] theorem Engine.goto_active : (e.goto k).active = e.active := rfl
@[simp] theorem Engine.goto_pend : (e.goto k).pend = e.pend := rfl
@[simp] theorem Engine.goto_inCount : (e.goto k).inCount = e.inCount := rfl
@[simp] theorem Engine.goto_outCount : (e.goto k).outCount = e.outCount := rfl
@[simp] theorem Engine.goto_result : (e.goto k).result = e.result := rfl

@[simp] theorem Engine.emitAll_core : (e.emitAll ts).core = e.core := rfl
@[simp] theorem Engine.emitAll_active : (e.emitAll ts).active = e.active := rfl
@[simp] theorem Engine.emitAll_pend : (e.emitAll ts).pend = e.pend ++ ts := rfl
@[simp] theorem Engine.emitAll_inCount : (e.emitAll ts).inCount = e.inCount := rfl
@[simp] theorem Engine.emitAll_outCount : (e.emitAll ts).outCount = e.outCount := rfl
@[simp] theorem Engine.emitAll_result : (e.emitAll ts).result = e.result := rfl

theorem Engine.emit_eq (o : OutTok) : e.emit o = e.emitAll [o] := rfl

@[simp] theorem Engine.begin_core : (e.begin r).core = e.core := by unfold Engine.begin; split <;> rfl
@[simp] theorem Engine.begin_pend : (e.begin r).pend = e.pend := by unfold Engine.begin; split <;> rfl
@[simp] theorem Engine.begin_active : (e.begin r).active = true := by unfold Engine.begin; split <;> simp_all
theorem Engine.begin_inCount : (e.begin r).inCount = if e.active then e.inCount else 0 := by
  unfold Engine.begin; split <;> rfl
theorem Engine.begin_outCount : (e.begin r).outCount = if e.active then e.outCount else 0 := by
  unfold Engine.begin; split <;> rfl
theorem Engine.begin_result : (e.begin r).result = if e.active then e.result else r := by
  unfold Engine.begin; split <;> rfl

@[simp] theorem Engine.countIn_core : (e.countIn w t).core = e.core := by cases t <;> rfl
@[simp] theorem Engine.countIn_active : (e.countIn w t).active = e.active := by cases t <;> rfl
@[simp] theorem Engine.countIn_pend : (e.countIn w t).pend = e.pend := by cases t <;> rfl
@[simp] theorem Engine.countIn_outCount : (e.countIn w t).outCount = e.outCount := by cases t <;> rfl
@[simp] theorem Engine.countIn_result : (e.countIn w t).result = e.result := by cases t <;> rfl

@[simp] theorem Engine.finish_core : (e.finish t).core = e.core := by cases t <;> rfl
@[simp] theorem Engine.finish_pend : (e.finish t).pend = e.pend := by cases t <;> rfl
@[simp] theorem Engine.finish_inCount : (e.finish t).inCount = e.inCount := by cases t <;> rfl
@[simp] theorem Engine.finish_outCount : (e.finish t).outCount = e.outCount := by cases t <;> rfl
@[simp] theorem Engine.finish_result : (e.finish t).result = e.result := by cases t <;> rfl

/-- `busy` says that something is pending (R86). -/
theorem Engine.busy_eq_false : e.busy = false ↔ e.pend = [] := by
  unfold Engine.busy; split <;> simp_all

theorem Engine.busy_eq_true : e.busy = true ↔ e.pend ≠ [] := by
  unfold Engine.busy; split <;> simp_all

end EngineFields

section TraceFields
variable (t : InTok) (o : OutTok) (tr : Trace)

@[simp] theorem Trace.accept_accepted : (tr.accept t).accepted = tr.accepted ++ [t] := rfl
@[simp] theorem Trace.accept_delivered : (tr.accept t).delivered = tr.delivered := rfl
@[simp] theorem Trace.deliver_accepted : (tr.deliver o).accepted = tr.accepted := rfl
@[simp] theorem Trace.deliver_delivered : (tr.deliver o).delivered = tr.delivered ++ [o] := rfl

end TraceFields

section StateFields
variable (e : EncState) (d : DecState) (tr : Trace) (s : State)

@[simp] theorem State.setEnc_cntW : (s.setEnc e tr).cntW = s.cntW := rfl
@[simp] theorem State.setEnc_enc : (s.setEnc e tr).enc = e := rfl
@[simp] theorem State.setEnc_dec : (s.setEnc e tr).dec = s.dec := rfl
@[simp] theorem State.setEnc_encTrace : (s.setEnc e tr).encTrace = tr := rfl
@[simp] theorem State.setEnc_decTrace : (s.setEnc e tr).decTrace = s.decTrace := rfl
@[simp] theorem State.setEnc_edges : (s.setEnc e tr).edges = s.edges := rfl
@[simp] theorem State.setEnc_tick : (s.setEnc e tr).tick = s.tick := rfl

@[simp] theorem State.setDec_cntW : (s.setDec d tr).cntW = s.cntW := rfl
@[simp] theorem State.setDec_enc : (s.setDec d tr).enc = s.enc := rfl
@[simp] theorem State.setDec_dec : (s.setDec d tr).dec = d := rfl
@[simp] theorem State.setDec_encTrace : (s.setDec d tr).encTrace = s.encTrace := rfl
@[simp] theorem State.setDec_decTrace : (s.setDec d tr).decTrace = tr := rfl
@[simp] theorem State.setDec_edges : (s.setDec d tr).edges = s.edges := rfl
@[simp] theorem State.setDec_tick : (s.setDec d tr).tick = s.tick := rfl

@[simp] theorem State.advance_cntW : s.advance.cntW = s.cntW := rfl
@[simp] theorem State.advance_enc : s.advance.enc = s.enc := rfl
@[simp] theorem State.advance_dec : s.advance.dec = s.dec := rfl
@[simp] theorem State.advance_encTrace : s.advance.encTrace = s.encTrace := rfl
@[simp] theorem State.advance_decTrace : s.advance.decTrace = s.decTrace := rfl
@[simp] theorem State.advance_edges : s.advance.edges = s.edges.tail := rfl
@[simp] theorem State.advance_tick : s.advance.tick = s.tick + 1 := rfl

end StateFields

end Sys2Proof.Machine
end

