-- ==== Sys2Proof/Laws/Ops.lean ====
section
/-! SUPPORT. What the shared operations can do: `Accept` on either engine, `Deliver`, and an edge. -/

namespace Sys2Proof.Machine

/-- `Accept` on ENC with nothing pending, by a rule that applies. -/
theorem acceptEnc_of_rule {t : InTok} {rule : EncState → Option EncState} {s : State} {e : EncState}
    (hpend : s.enc.pend = []) (hrule : rule ((s.enc.begin .none).countIn s.cntW t) = some e) :
    acceptEnc t rule s = .next (s.setEnc (e.finish t) (s.encTrace.accept t)) := by
  simp [acceptEnc, Engine.busy, hpend, Engine.accept, hrule]

/-- `Accept` on ENC answers a next state only by waiting (R180) or by its rule. -/
theorem acceptEnc_cases {t : InTok} {rule : EncState → Option EncState} {s s' : State}
    (h : acceptEnc t rule s = .next s') :
    (s.enc.pend ≠ [] ∧ s' = s) ∨
    (s.enc.pend = [] ∧ ∃ e, rule ((s.enc.begin .none).countIn s.cntW t) = some e ∧
      s' = s.setEnc (e.finish t) (s.encTrace.accept t)) := by
  unfold acceptEnc at h
  split at h
  · next hb => exact .inl ⟨(Engine.busy_eq_true _).mp hb, by simpa using h.symm⟩
  · next hb =>
    refine .inr ⟨(Engine.busy_eq_false _).mp hb, ?_⟩
    unfold Engine.accept at h
    cases hr : rule ((s.enc.begin .none).countIn s.cntW t) with
    | none => simp [hr] at h
    | some e => exact ⟨e, rfl, by simpa [hr] using h.symm⟩

/-- With output pending `Accept` on ENC changes nothing (R180). -/
theorem acceptEnc_of_pending {t : InTok} {rule : EncState → Option EncState} {s : State} (h : s.enc.pend ≠ []) :
    acceptEnc t rule s = .next s := by
  simp [acceptEnc, (Engine.busy_eq_true s.enc).mpr h]

/-- `Accept` on DEC with nothing pending, by a rule that applies. -/
theorem acceptDec_of_rule {t : InTok} {rule : DecState → Option DecState} {s : State} {e : DecState}
    (hpend : s.dec.pend = []) (hrule : rule ((s.dec.begin .none).countIn s.cntW t) = some e) :
    acceptDec t rule s = .next (s.setDec (e.finish t) (s.decTrace.accept t)) := by
  simp [acceptDec, Engine.busy, hpend, Engine.accept, hrule]

/-- `Accept` on DEC answers a next state only by waiting (R180) or by its rule. -/
theorem acceptDec_cases {t : InTok} {rule : DecState → Option DecState} {s s' : State}
    (h : acceptDec t rule s = .next s') :
    (s.dec.pend ≠ [] ∧ s' = s) ∨
    (s.dec.pend = [] ∧ ∃ e, rule ((s.dec.begin .none).countIn s.cntW t) = some e ∧
      s' = s.setDec (e.finish t) (s.decTrace.accept t)) := by
  unfold acceptDec at h
  split at h
  · next hb => exact .inl ⟨(Engine.busy_eq_true _).mp hb, by simpa using h.symm⟩
  · next hb =>
    refine .inr ⟨(Engine.busy_eq_false _).mp hb, ?_⟩
    unfold Engine.accept at h
    cases hr : rule ((s.dec.begin .none).countIn s.cntW t) with
    | none => simp [hr] at h
    | some e => exact ⟨e, rfl, by simpa [hr] using h.symm⟩

/-- With output pending `Accept` on DEC changes nothing (R180). -/
theorem acceptDec_of_pending {t : InTok} {rule : DecState → Option DecState} {s : State} (h : s.dec.pend ≠ []) :
    acceptDec t rule s = .next s := by
  simp [acceptDec, (Engine.busy_eq_true s.dec).mpr h]

/-- What `Deliver` on ENC can do: nothing with nothing pending, else take the head (R184 to R186). -/
theorem deliverEnc_cases {s s' : State} (h : deliverEnc s = .next s') :
    (s.enc.pend = [] ∧ s' = s) ∨
    (∃ t rest r, s.enc.pend = t :: rest ∧ encResultAfter t s.enc.result = some r ∧
      s' = s.setEnc { s.enc with pend := rest, outCount := countOut s.cntW t s.enc.outCount, result := r }
        (s.encTrace.deliver t)) := by
  unfold deliverEnc at h
  split at h
  · next hp => exact .inl ⟨hp, by simpa using h.symm⟩
  · next t rest hp =>
    cases hr : encResultAfter t s.enc.result with
    | none => simp [hr] at h
    | some r => exact .inr ⟨t, rest, r, hp, hr, by simpa [hr] using h.symm⟩

/-- What `Deliver` on DEC can do (R184 to R186); it always answers a next state. -/
theorem deliverDec_cases {s s' : State} (h : deliverDec s = .next s') :
    (s.dec.pend = [] ∧ s' = s) ∨
    (∃ t rest, s.dec.pend = t :: rest ∧
      s' = s.setDec { s.dec with pend := rest, outCount := countOut s.cntW t s.dec.outCount,
                                 result := decResultAfter t s.dec.result } (s.decTrace.deliver t)) := by
  unfold deliverDec at h
  split at h
  · next hp => exact .inl ⟨hp, by simpa using h.symm⟩
  · next t rest hp => exact .inr ⟨t, rest, hp, by simpa using h.symm⟩

/-- What an edge at ENC can do: reset, run the decoded row, deliver, or nothing (R187). -/
theorem encEdge_cases {p : Pins} {s s' : State} (h : encEdge p s = .next s') :
    (p.rst = true ∧ s' = resetEnc s) ∨
    (p.rst = false ∧ p.inValid = true ∧ s.enc.pend = [] ∧
      ∃ i, decodeEnc s.enc.core p.tokenWord = .ok i ∧ exec i s = .next s') ∨
    (p.rst = false ∧ p.outReady = true ∧ s.enc.pend ≠ [] ∧ deliverEnc s = .next s') ∨ (p.rst = false ∧ s' = s) := by
  unfold encEdge at h
  cases hr : p.rst with
  | true => exact .inl ⟨rfl, by simpa [hr] using h.symm⟩
  | false =>
    refine .inr ?_
    simp only [hr, Bool.false_eq_true, if_false] at h
    split at h
    · next ha =>
      simp only [acceptEnabled, Engine.inReady, hr, Bool.and_eq_true, Bool.not_false, true_and, and_true,
        Bool.not_eq_true', Engine.busy_eq_false] at ha
      refine .inl ⟨rfl, ha.1, ha.2, ?_⟩
      cases hd : decodeEnc s.enc.core p.tokenWord with
      | ok i => exact ⟨i, rfl, by simpa [hd] using h⟩
      | error f => simp [hd] at h
    · split at h
      · next hd =>
        simp only [deliverEnabled, Engine.outValid, hr, Bool.and_eq_true, Bool.not_false, true_and, and_true,
          Engine.busy_eq_true] at hd
        exact .inr (.inl ⟨rfl, hd.1, hd.2, h⟩)
      · exact .inr (.inr ⟨rfl, by simpa using h.symm⟩)

/-- What an edge at DEC can do (R187). -/
theorem decEdge_cases {p : Pins} {s s' : State} (h : decEdge p s = .next s') :
    (p.rst = true ∧ s' = resetDec s) ∨
    (p.rst = false ∧ p.inValid = true ∧ s.dec.pend = [] ∧
      ∃ i, decodeDec s.dec.core p.tokenWord = .ok i ∧ exec i s = .next s') ∨
    (p.rst = false ∧ p.outReady = true ∧ s.dec.pend ≠ [] ∧ deliverDec s = .next s') ∨ (p.rst = false ∧ s' = s) := by
  unfold decEdge at h
  cases hr : p.rst with
  | true => exact .inl ⟨rfl, by simpa [hr] using h.symm⟩
  | false =>
    refine .inr ?_
    simp only [hr, Bool.false_eq_true, if_false] at h
    split at h
    · next ha =>
      simp only [acceptEnabled, Engine.inReady, hr, Bool.and_eq_true, Bool.not_false, true_and, and_true,
        Bool.not_eq_true', Engine.busy_eq_false] at ha
      refine .inl ⟨rfl, ha.1, ha.2, ?_⟩
      cases hd : decodeDec s.dec.core p.tokenWord with
      | ok i => exact ⟨i, rfl, by simpa [hd] using h⟩
      | error f => simp [hd] at h
    · split at h
      · next hd =>
        simp only [deliverEnabled, Engine.outValid, hr, Bool.and_eq_true, Bool.not_false, true_and, and_true,
          Engine.busy_eq_true] at hd
        exact .inr (.inl ⟨rfl, hd.1, hd.2, h⟩)
      · exact .inr (.inr ⟨rfl, by simpa using h.symm⟩)

/-- A step is an edge at ENC, then an edge at DEC. -/
theorem bothEdges_cases {p : Edge} {s s' : State} (h : bothEdges p s = .next s') :
    ∃ m, encEdge p.enc s = .next m ∧ decEdge p.dec m = .next s' := by
  unfold bothEdges at h
  cases he : encEdge p.enc s with
  | next m => exact ⟨m, rfl, by simpa [he] using h⟩
  | fault f => simp [he] at h
  | refused r => simp [he] at h

end Sys2Proof.Machine
end

