-- ==== Sys2Proof/Laws/Accept.lean ====
section
/-! SUPPORT. The framing of an invocation in closed form: an `Accept` by a rule that writes `core` and emits tokens leaves
`acceptedEnc` or `acceptedDec`; and how the token words read. -/

namespace Sys2Proof.Machine

/-- A rule that, on any record with this core and nothing pending, emits `out` and writes `k`, leaves `acceptedEnc`. -/
theorem acceptEnc_accepted {t : InTok} {rule : EncState → Option EncState} {s : State} {k : EncCore}
    {out : List OutTok} (hpend : s.enc.pend = [])
    (hrule : ∀ e : EncState, e.core = s.enc.core → e.pend = [] → rule e = some ((e.emitAll out).goto k)) :
    acceptEnc t rule s = .next (acceptedEnc s t k out) := by
  have h := hrule ((s.enc.begin .none).countIn s.cntW t) (by simp) (by simp [hpend])
  rw [acceptEnc_of_rule hpend h]
  cases ha : s.enc.active <;> cases t <;>
    simp [acceptedEnc, State.setEnc, Trace.accept, Engine.begin, Engine.countIn, Engine.finish, Engine.goto,
      Engine.emitAll, countUp, ha, hpend]

/-- A rule that, on any record with this core and nothing pending, emits `out` and writes `k`, leaves `acceptedDec`. -/
theorem acceptDec_accepted {t : InTok} {rule : DecState → Option DecState} {s : State} {k : DecCore}
    {out : List OutTok} (hpend : s.dec.pend = [])
    (hrule : ∀ e : DecState, e.core = s.dec.core → e.pend = [] → rule e = some ((e.emitAll out).goto k)) :
    acceptDec t rule s = .next (acceptedDec s t k out) := by
  have h := hrule ((s.dec.begin .none).countIn s.cntW t) (by simp) (by simp [hpend])
  rw [acceptDec_of_rule hpend h]
  cases ha : s.dec.active <;> cases t <;>
    simp [acceptedDec, State.setDec, Trace.accept, Engine.begin, Engine.countIn, Engine.finish, Engine.goto,
      Engine.emitAll, countUp, ha, hpend]

/-- `flush_lit` emits `litTokens` (R101). -/
theorem flushLit_eq (p : List Byte) (e : EncState) : flushLit p e = e.emitAll (litTokens p) := by
  simp [flushLit, Engine.emit, Engine.emitAll, litTokens, litControl]

/-- `flush_run` emits `runTokens` (R102). -/
theorem flushRun_eq (n : Nat) (v : Byte) (e : EncState) : flushRun n v e = e.emitAll (runTokens n v) := by
  simp [flushRun, Engine.emit, Engine.emitAll, runTokens, runControl]

@[simp] theorem Engine.emitAll_emitAll {κ ρ : Type} (xs ys : List OutTok) (e : Engine κ ρ) :
    (e.emitAll xs).emitAll ys = e.emitAll (xs ++ ys) := by
  simp [Engine.emitAll]

@[simp] theorem Engine.emitAll_nil {κ ρ : Type} (e : Engine κ ρ) : e.emitAll [] = e := by
  simp [Engine.emitAll]

/-- A word with `in_kind = 0` is its byte (R83). -/
theorem tokenOf_byteWord : ∀ b : Byte, tokenOf (byteWord b) = .byte b := by
  unfold tokenOf byteWord
  intro b
  have h8 : (0#1 ++ b : BitVec 9).getLsbD 8 = false := by
    rw [BitVec.getLsbD_append]; simp
  have hlow : (0#1 ++ b : BitVec 9).extractLsb' 0 8 = b := by
    apply BitVec.eq_of_toNat_eq
    have hnat : (0#1 ++ b : BitVec (1 + 8)).toNat = b.toNat := by rw [BitVec.toNat_append]; simp
    rw [BitVec.extractLsb'_toNat, hnat]
    exact Nat.mod_eq_of_lt b.isLt
  rw [h8, hlow]
  rfl

/-- A word with `in_kind = 1` is `End` (R83). -/
theorem tokenOf_kind_one (d : Byte) : tokenOf (1#1 ++ d : BitVec 9) = .endTok := by
  unfold tokenOf
  have h8 : (1#1 ++ d : BitVec 9).getLsbD 8 = true := by
    rw [BitVec.getLsbD_append]; simp
  rw [h8]
  rfl

/-- The word of `End` (R83). -/
theorem tokenOf_endWord : tokenOf endWord = .endTok := by decide

end Sys2Proof.Machine
end

