-- ==== Sys2Proof/Laws/PerInstr.lean ====
section
/-! SUPPORT. The family TableRow: the encoded word of a well-formed instruction matches that instruction's row of
spec/opcode_table.json (R87), one lemma per constructor. -/

namespace Sys2Proof.Laws.TableRow

/-- The word of a well-formed instruction matches its row by `match`, `mask` and `excludes` (R87). -/
def Statement (i : Instr) : Prop := i.wellFormed = true → i.row.matchesWord (encode i) = true

/-- Every byte's word matches the plain Byte rows. -/
theorem byteWord_matches : ∀ b : Byte, decide (byteWord b &&& 0x100#9 = 0x000#9) = true := by decide

/-- A run control byte's word matches D.CTRL.RUN. -/
theorem runWord_matches : ∀ c : Byte, (Instr.dCtrlRun c).wellFormed = true →
    (Instr.dCtrlRun c).row.matchesWord (byteWord c) = true := by decide

/-- A literal control byte's word matches D.CTRL.LIT. -/
theorem litWord_matches : ∀ c : Byte, (Instr.dCtrlLit c).wellFormed = true →
    (Instr.dCtrlLit c).row.matchesWord (byteWord c) = true := by decide

theorem eIdleByte (b : Byte) : Statement (.eIdleByte b) := fun _ => by
  simpa [TableRow.matchesWord, Instr.row, encode] using byteWord_matches b

theorem eLitCap (b : Byte) : Statement (.eLitCap b) := fun _ => by
  simpa [TableRow.matchesWord, Instr.row, encode] using byteWord_matches b

theorem eLitMatch (b : Byte) : Statement (.eLitMatch b) := fun _ => by
  simpa [TableRow.matchesWord, Instr.row, encode] using byteWord_matches b

theorem eLitAppend (b : Byte) : Statement (.eLitAppend b) := fun _ => by
  simpa [TableRow.matchesWord, Instr.row, encode] using byteWord_matches b

theorem eRunExtend (b : Byte) : Statement (.eRunExtend b) := fun _ => by
  simpa [TableRow.matchesWord, Instr.row, encode] using byteWord_matches b

theorem eRunCap (b : Byte) : Statement (.eRunCap b) := fun _ => by
  simpa [TableRow.matchesWord, Instr.row, encode] using byteWord_matches b

theorem eRunBreak (b : Byte) : Statement (.eRunBreak b) := fun _ => by
  simpa [TableRow.matchesWord, Instr.row, encode] using byteWord_matches b

theorem eEndIdle : Statement .eEndIdle := fun _ => by decide

theorem eEndLit : Statement .eEndLit := fun _ => by decide

theorem eEndRun : Statement .eEndRun := fun _ => by decide

theorem dCtrlRun (c : Byte) : Statement (.dCtrlRun c) := runWord_matches c

theorem dCtrlLit (c : Byte) : Statement (.dCtrlLit c) := litWord_matches c

theorem dCtrlInvalid00 : Statement .dCtrlInvalid00 := fun _ => by decide

theorem dCtrlInvalid01 : Statement .dCtrlInvalid01 := fun _ => by decide

theorem dCtrlInvalid80 : Statement .dCtrlInvalid80 := fun _ => by decide

theorem dRunvalByte (v : Byte) : Statement (.dRunvalByte v) := fun _ => by
  simpa [TableRow.matchesWord, Instr.row, encode] using byteWord_matches v

theorem dLitpayByte (b : Byte) : Statement (.dLitpayByte b) := fun _ => by
  simpa [TableRow.matchesWord, Instr.row, encode] using byteWord_matches b

theorem dDrainByte (b : Byte) : Statement (.dDrainByte b) := fun _ => by
  simpa [TableRow.matchesWord, Instr.row, encode] using byteWord_matches b

theorem dEndCtrl : Statement .dEndCtrl := fun _ => by decide

theorem dEndRunval : Statement .dEndRunval := fun _ => by decide

theorem dEndLitpay : Statement .dEndLitpay := fun _ => by decide

theorem dEndDrain : Statement .dEndDrain := fun _ => by decide

end Sys2Proof.Laws.TableRow
end

