-- ==== Sys2Proof/Tests/Slice0.lean ====
section
/-! SUPPORT. Tests: expected results come from the worked examples of the rules and the vectors and programs of
95_test_vectors.md (EV, DV, FV, P), never from the model. Then one witness for the hypotheses of each statement. -/

namespace Sys2Proof.Tests

open Machine

/-- A state with ENC inside an invocation, in core `k`. -/
def encAt (k : EncCore) : State := { State.reset with enc := { EncState.reset with core := k, active := true } }

/-- A state with DEC inside an invocation, in core `k`. -/
def decAt (k : DecCore) : State := { State.reset with dec := { DecState.reset with core := k, active := true } }

/-- `s` with one edge to come. -/
def atEdge (enc dec : Pins) (s : State) : State := { s with edges := [{ enc := enc, dec := dec }] }

/-- The next state of an outcome. -/
def nextOf : Host.Outcome State Fault Refusal → Option State
  | .next t => some t
  | .fault _ => none
  | .refused _ => none

/-- What ENC shows after the edge that offers word `tw`: core, pending output, status. -/
def afterEncWord (s : State) (tw : TokenWord) : Option (EncCore × List OutTok × Byte) :=
  (nextOf (step (atEdge (Pins.offer tw) Pins.idle s))).map fun t => (t.enc.core, t.enc.pend, encStatus t.enc)

/-- What DEC shows after the edge that offers word `tw`: core, pending output, status. -/
def afterDecWord (s : State) (tw : TokenWord) : Option (DecCore × List OutTok × Byte) :=
  (nextOf (step (atEdge Pins.idle (Pins.offer tw) s))).map fun t => (t.dec.core, t.dec.pend, decStatus t.dec)

/-- `buf` of 127 bytes `00..7E` (EV17). -/
def fullBuf : List Byte := (List.range 127).map (BitVec.ofNat 8)

/-! ### Well-formedness refuses each ill-formed operand (R141, R142) -/

theorem test_wf_ctrlRun_low : (Instr.dCtrlRun 0x01#8).wellFormed = false := by decide
theorem test_wf_ctrlRun_high : (Instr.dCtrlRun 0x80#8).wellFormed = false := by decide
theorem test_wf_ctrlLit_low : (Instr.dCtrlLit 0x80#8).wellFormed = false := by decide
theorem test_wf_ctrlRun_bounds :
    (Instr.dCtrlRun 0x02#8).wellFormed = true ∧ (Instr.dCtrlRun 0x7F#8).wellFormed = true := by decide
theorem test_wf_ctrlLit_bounds :
    (Instr.dCtrlLit 0x81#8).wellFormed = true ∧ (Instr.dCtrlLit 0xFF#8).wellFormed = true := by decide

/-! ### Decoding, each constructor by a word written out from R83 and its row -/

theorem test_decode_eIdleByte : decodeEnc .idle 0b0_01000001#9 = .ok (.eIdleByte 0x41#8) := by rfl
theorem test_decode_eLitCap : decodeEnc (.lit fullBuf) 0b0_01111111#9 = .ok (.eLitCap 0x7F#8) := by decide +kernel
theorem test_decode_eLitCap_before_match :
    decodeEnc (.lit fullBuf) 0b0_01111110#9 = .ok (.eLitCap 0x7E#8) := by decide +kernel
theorem test_decode_eLitMatch :
    decodeEnc (.lit [0x00#8, 0x01#8]) 0b0_00000001#9 = .ok (.eLitMatch 0x01#8) := by rfl
theorem test_decode_eLitAppend :
    decodeEnc (.lit [0x01#8, 0x02#8]) 0b0_00000001#9 = .ok (.eLitAppend 0x01#8) := by rfl
theorem test_decode_eRunExtend : decodeEnc (.run 0x01#8 2) 0b0_00000001#9 = .ok (.eRunExtend 0x01#8) := by rfl
theorem test_decode_eRunCap : decodeEnc (.run 0xAA#8 127) 0b0_10101010#9 = .ok (.eRunCap 0xAA#8) := by rfl
theorem test_decode_eRunBreak : decodeEnc (.run 0x01#8 3) 0b0_00101010#9 = .ok (.eRunBreak 0x2A#8) := by rfl
theorem test_decode_eEndIdle : decodeEnc .idle 0b1_00000000#9 = .ok .eEndIdle := by rfl
theorem test_decode_eEndLit : decodeEnc (.lit [0x65#8]) 0b1_11111111#9 = .ok .eEndLit := by rfl
theorem test_decode_eEndRun : decodeEnc (.run 0xAA#8 127) 0b1_00000000#9 = .ok .eEndRun := by rfl
theorem test_decode_dCtrlRun : decodeDec .ctrl 0b0_00000011#9 = .ok (.dCtrlRun 0x03#8) := by rfl
theorem test_decode_dCtrlLit : decodeDec .ctrl 0b0_11111110#9 = .ok (.dCtrlLit 0xFE#8) := by rfl
theorem test_decode_dCtrlInvalid00 : decodeDec .ctrl 0b0_00000000#9 = .ok .dCtrlInvalid00 := by rfl
theorem test_decode_dCtrlInvalid01 : decodeDec .ctrl 0b0_00000001#9 = .ok .dCtrlInvalid01 := by rfl
theorem test_decode_dCtrlInvalid80 : decodeDec .ctrl 0b0_10000000#9 = .ok .dCtrlInvalid80 := by rfl
theorem test_decode_dRunvalByte : decodeDec (.runVal 3) 0b0_00000001#9 = .ok (.dRunvalByte 0x01#8) := by rfl
theorem test_decode_dLitpayByte : decodeDec (.litPay 1) 0b0_01100101#9 = .ok (.dLitpayByte 0x65#8) := by rfl
theorem test_decode_dDrainByte : decodeDec .drain 0b0_00000101#9 = .ok (.dDrainByte 0x05#8) := by rfl
theorem test_decode_dEndCtrl : decodeDec .ctrl 0b1_00000000#9 = .ok .dEndCtrl := by rfl
theorem test_decode_dEndRunval : decodeDec (.runVal 5) 0b1_00000000#9 = .ok .dEndRunval := by rfl
theorem test_decode_dEndLitpay : decodeDec (.litPay 1) 0b1_00000000#9 = .ok .dEndLitpay := by rfl
theorem test_decode_dEndDrain : decodeDec .drain 0b1_00000000#9 = .ok .dEndDrain := by rfl

/-- A core that no run reaches is rejected by name (R22, R25). -/
theorem test_decode_rejects_illegal_core :
    decodeEnc (.lit []) 0b0_00000000#9 = .error .encCoreIllegal ∧
    decodeDec (.litPay 0) 0b0_00000000#9 = .error .decCoreIllegal := ⟨by rfl, by rfl⟩

/-! ### One edge of each rule -/

/-- P1 edge 1: status 0x05. -/
theorem test_eIdleByte : afterEncWord State.reset 0x000#9 = some (.lit [0x00#8], [], 0x05#8) := by decide

/-- R104's example: 128 tokens, `81 00 01 .. 7E`. -/
theorem test_eLitCap : (afterEncWord (encAt (.lit fullBuf)) 0x07F#9).map (fun r => (r.1, r.2.1.take 3, r.2.1.length)) =
    some (.lit [0x7F#8], [.byte 0x81#8, .byte 0x00#8, .byte 0x01#8], 128) := by decide +kernel

/-- P1 edge 3. -/
theorem test_eLitMatch : afterEncWord (encAt (.lit [0x00#8, 0x01#8])) 0x001#9 =
    some (.run 0x01#8 2, [.byte 0xFF#8, .byte 0x00#8], 0x0E#8) := by decide

/-- P1 edge 10: a pair alone emits nothing. -/
theorem test_eLitMatch_single : afterEncWord (encAt (.lit [0x2A#8])) 0x02A#9 = some (.run 0x2A#8 2, [], 0x06#8) := by
  decide

/-- R107's example: an equal byte that is not adjacent. -/
theorem test_eLitAppend : afterEncWord (encAt (.lit [0x01#8, 0x02#8])) 0x001#9 =
    some (.lit [0x01#8, 0x02#8, 0x01#8], [], 0x05#8) := by decide

/-- P5 edge 127. -/
theorem test_eRunExtend : afterEncWord (encAt (.run 0x55#8 126)) 0x055#9 = some (.run 0x55#8 127, [], 0x06#8) := by
  decide

/-- P5 edge 128. -/
theorem test_eRunCap : afterEncWord (encAt (.run 0x55#8 127)) 0x055#9 =
    some (.lit [0x55#8], [.byte 0x7F#8, .byte 0x55#8], 0x0D#8) := by decide

/-- P1 edge 7. -/
theorem test_eRunBreak : afterEncWord (encAt (.run 0x01#8 3)) 0x02A#9 =
    some (.lit [0x2A#8], [.byte 0x03#8, .byte 0x01#8], 0x0D#8) := by decide

/-- P3 edge 1. -/
theorem test_eEndIdle : afterEncWord State.reset 0x100#9 = some (.idle, [.endTok], 0x08#8) := by decide

/-- P1 edge 14. -/
theorem test_eEndLit : afterEncWord (encAt (.lit [0x65#8])) 0x100#9 =
    some (.idle, [.byte 0xFF#8, .byte 0x65#8, .endTok], 0x08#8) := by decide

/-- FV10: the step with the most output, 129 tokens. -/
theorem test_eEndLit_full :
    (afterEncWord (encAt (.lit fullBuf)) 0x100#9).map (fun r => r.2.1.length) = some 129 := by decide +kernel

/-- P3 edge 6. -/
theorem test_eEndRun : afterEncWord (encAt (.run 0xAA#8 3)) 0x100#9 =
    some (.idle, [.byte 0x03#8, .byte 0xAA#8, .endTok], 0x08#8) := by decide

/-- P4 edge 1. -/
theorem test_dCtrlRun : afterDecWord State.reset 0x002#9 = some (.runVal 2, [], 0x05#8) := by decide

/-- R142: `81` gives `LitPay(127)`; P6 edge 1: `FE` gives `LitPay(2)`. -/
theorem test_dCtrlLit : afterDecWord State.reset 0x0FE#9 = some (.litPay 2, [], 0x06#8) ∧
    afterDecWord State.reset 0x081#9 = some (.litPay 127, [], 0x06#8) := by decide

/-- P4 edge 5. -/
theorem test_dCtrlInvalid00 : afterDecWord (decAt .ctrl) 0x000#9 =
    some (.drain, [.error .invalidControlByte], 0x0F#8) := by decide

/-- DV9. -/
theorem test_dCtrlInvalid01 : afterDecWord State.reset 0x001#9 =
    some (.drain, [.error .invalidControlByte], 0x0F#8) := by decide

/-- DV10. -/
theorem test_dCtrlInvalid80 : afterDecWord State.reset 0x080#9 =
    some (.drain, [.error .invalidControlByte], 0x0F#8) := by decide

/-- P2 edge 5. -/
theorem test_dRunvalByte : afterDecWord (decAt (.runVal 3)) 0x001#9 =
    some (.ctrl, [.byte 0x01#8, .byte 0x01#8, .byte 0x01#8], 0x0C#8) := by decide

/-- P6 edge 2, and P2 edge 2. -/
theorem test_dLitpayByte : afterDecWord (decAt (.litPay 2)) 0x001#9 = some (.litPay 1, [.byte 0x01#8], 0x0E#8) ∧
    afterDecWord (decAt (.litPay 1)) 0x000#9 = some (.ctrl, [.byte 0x00#8], 0x0C#8) := by decide

/-- P4 edge 7: nothing emitted, the byte counted, the result kept. -/
theorem test_dDrainByte :
    (nextOf (step (atEdge Pins.idle (Pins.offer 0x011#9) { State.reset with dec :=
      { core := .drain, active := true, pend := [], inCount := 3, outCount := 2, result := .invalid } }))).map
      (fun t => (t.dec.core, t.dec.pend, t.dec.inCount, decStatus t.dec)) = some (.drain, [], 4, 0x37#8) := by decide

/-- P2 edge 16. -/
theorem test_dEndCtrl : afterDecWord (decAt .ctrl) 0x100#9 = some (.ctrl, [.endTok], 0x08#8) := by decide

/-- DV11. -/
theorem test_dEndRunval : afterDecWord (decAt (.runVal 5)) 0x100#9 =
    some (.ctrl, [.error .truncatedRecord], 0x08#8) := by decide

/-- P6 edge 4. -/
theorem test_dEndLitpay : afterDecWord (decAt (.litPay 1)) 0x100#9 =
    some (.ctrl, [.error .truncatedRecord], 0x08#8) := by decide

/-- P4 edge 9: `active` falls, the result stays INVALID. -/
theorem test_dEndDrain :
    (nextOf (step (atEdge Pins.idle (Pins.offer 0x100#9) { State.reset with dec :=
      { core := .drain, active := true, pend := [], inCount := 5, outCount := 2, result := .invalid } }))).map
      (fun t => (t.dec.core, t.dec.pend, t.dec.inCount, decStatus t.dec)) = some (.ctrl, [], 5, 0x30#8) := by decide

/-! ### Framing, delivery and reset -/

/-- FV5: the first token of the next invocation clears the report. -/
theorem test_new_invocation :
    (nextOf (step (atEdge (Pins.offer 0x0AA#9) Pins.idle { State.reset with enc :=
      { core := .idle, active := false, pend := [], inCount := 7, outCount := 8, result := .ok } }))).map
      (fun t => (t.enc.core, t.enc.inCount, t.enc.outCount, t.enc.result, encStatus t.enc)) =
    some (.lit [0xAA#8], 1, 0, .none, 0x05#8) := by decide

/-- FV3, FV4: a token offered while output is pending is not taken and nothing changes. -/
theorem test_backpressure : afterEncWord { State.reset with enc :=
      { core := .run 0x01#8 2, active := true, pend := [.byte 0xFF#8, .byte 0x00#8], inCount := 3, outCount := 0,
        result := .none } } 0x007#9 =
    some (.run 0x01#8 2, [.byte 0xFF#8, .byte 0x00#8], 0x0E#8) := by decide

/-- P1 edge 17: delivering `End` records OK. -/
theorem test_deliver_end :
    (nextOf (step (atEdge Pins.take Pins.idle { State.reset with enc :=
      { core := .idle, active := false, pend := [.endTok], inCount := 7, outCount := 8, result := .none } }))).map
      (fun t => (t.enc.pend, t.enc.outCount, encStatus t.enc)) = some ([], 8, 0x10#8) := by decide

/-- P4 edge 6 and P6 edge 5: delivering an error records its code. -/
theorem test_deliver_error :
    ((nextOf (step (atEdge Pins.idle Pins.take { State.reset with dec :=
      { core := .drain, active := true, pend := [.error .invalidControlByte], inCount := 3, outCount := 2,
        result := .none } }))).map (fun t => decStatus t.dec) = some 0x37#8) ∧
    ((nextOf (step (atEdge Pins.idle Pins.take { State.reset with dec :=
      { core := .ctrl, active := false, pend := [.error .truncatedRecord], inCount := 2, outCount := 1,
        result := .none } }))).map (fun t => decStatus t.dec) = some 0x20#8) := by decide

/-- R191, with `CNT_W = 8` as in FV7 and FV8: the counters wrap. -/
theorem test_counter_wrap : countUp 8 255 = 0 := by decide

/-- FV6: reset in the middle of a run. -/
theorem test_reset_edge : (nextOf (step (atEdge Pins.reset Pins.idle (encAt (.run 0xAA#8 5))))).map State.enc =
    some EncState.reset := by decide

/-- R85: the pins of the two errors. -/
theorem test_error_pins :
    (decPort false { State.reset with dec := { DecState.reset with pend := [.error .truncatedRecord] } }).outData =
      0x02#8 ∧
    (decPort false { State.reset with dec := { DecState.reset with pend := [.error .invalidControlByte] } }).outData =
      0x03#8 := ⟨by rfl, by rfl⟩

/-- W1, W4 and C1's bytes on the tables: EV23, DV11. -/
theorem test_stream_tables :
    encOutputs [0, 1, 1, 1, 42, 42, 101] =
      [.byte 0xFF#8, .byte 0, .byte 3, .byte 1, .byte 2, .byte 42, .byte 0xFF#8, .byte 101, .endTok] ∧
    decOutputs [5] = [.error .truncatedRecord] ∧ decOutputs [0xFE#8, 1] = [.byte 1, .error .truncatedRecord] := by
  decide

/-- `State.reset` runs: an empty schedule is an idle edge. -/
theorem test_reset_steps : (nextOf (step State.reset)).map (fun t => (t.enc, t.dec)) =
    some (State.reset.enc, State.reset.dec) := by decide

/-- A bare word runs as the first instruction after reset (log entry 5). -/
theorem test_placed_word : decodeTableWord 16 0x0FF = some (.dCtrlLit 0xFF#8) ∧
    (nextOf (step (State.reset.withFetchWord 16 0x0FF))).map (fun t => t.dec.core) = some (.litPay 1) :=
  ⟨by rfl, by decide⟩

/-! ### One witness for the hypotheses of each statement -/

theorem witness_ControlByteMap : ctrlClass 0x02#8 = .run 2 ∧ ctrlClass 0x7F#8 = .run 127 ∧
    ctrlClass 0x81#8 = .lit 127 ∧ ctrlClass 0xFF#8 = .lit 1 := by decide

theorem witness_DecodeOfEncode :
    (Instr.dCtrlRun 0x02#8).wellFormed = true ∧ (Instr.dCtrlRun 0x02#8).appliesIn State.reset = true ∧
    (Instr.eRunCap 0xAA#8).wellFormed = true ∧ (Instr.eRunCap 0xAA#8).appliesIn (encAt (.run 0xAA#8 127)) = true := by
  decide

theorem witness_DecodeIsSound : decodeAt .dec State.reset 0x17F#9 = .ok .dEndCtrl ∧
    decodeAt .enc State.reset 0x07F#9 = .ok (.eIdleByte 0x7F#8) := ⟨by rfl, by rfl⟩

theorem witness_EncExactlyOneRow : encCoreLegal (encAt (.lit fullBuf)).enc.core = true ∧
    encCoreLegal (encAt (.run 0x00#8 127)).enc.core = true := by decide +kernel

theorem witness_DecExactlyOneRow : decCoreLegal (decAt (.litPay 127)).dec.core = true ∧
    decCoreLegal (decAt (.runVal 2)).dec.core = true := by decide

theorem witness_IdleByteOpensLiteral :
    State.reset.enc.core = .idle ∧ State.reset.enc.pend = [] ∧ Inv State.reset := by decide

theorem witness_LitCapFlushes : (encAt (.lit fullBuf)).enc.core = .lit fullBuf ∧ fullBuf.length = 127 ∧
    (encAt (.lit fullBuf)).enc.pend = [] := ⟨rfl, by decide +kernel, rfl⟩

theorem witness_LitMatchStartsRun : (encAt (.lit [0x2A#8])).enc.core = .lit [0x2A#8] ∧ [0x2A#8].length < 127 ∧
    [0x2A#8].getLast? = some 0x2A#8 ∧ (encAt (.lit [0x2A#8])).enc.pend = [] := ⟨rfl, by decide, rfl, rfl⟩

theorem witness_LitAppendGrows : (encAt (.lit [0x2A#8])).enc.core = .lit [0x2A#8] ∧ [0x2A#8].length < 127 ∧
    [0x2A#8].getLast? = some 0x2A#8 ∧ 0x2B#8 ≠ 0x2A#8 ∧ (encAt (.lit [0x2A#8])).enc.pend = [] :=
  ⟨rfl, by decide, rfl, by decide, rfl⟩

theorem witness_RunExtendCounts : (encAt (.run 0x55#8 126)).enc.core = .run 0x55#8 126 ∧ 2 ≤ 126 ∧ 126 < 127 ∧
    (encAt (.run 0x55#8 126)).enc.pend = [] := by decide

theorem witness_RunCapFlushes : (encAt (.run 0x55#8 127)).enc.core = .run 0x55#8 127 ∧
    (encAt (.run 0x55#8 127)).enc.pend = [] := by decide

theorem witness_RunBreakFlushes : (encAt (.run 0x55#8 127)).enc.core = .run 0x55#8 127 ∧ 2 ≤ 127 ∧ 127 ≤ 127 ∧
    0x54#8 ≠ 0x55#8 ∧ (encAt (.run 0x55#8 127)).enc.pend = [] := by decide

theorem witness_EndIdleTerminates : State.reset.enc.core = .idle ∧ State.reset.enc.pend = [] ∧ Inv State.reset := by
  decide

theorem witness_EndLitFlushes : (encAt (.lit fullBuf)).enc.core = .lit fullBuf ∧ 1 ≤ fullBuf.length ∧
    fullBuf.length ≤ 127 ∧ (encAt (.lit fullBuf)).enc.pend = [] :=
  ⟨rfl, by decide +kernel, by decide +kernel, rfl⟩

theorem witness_EndRunFlushes : (encAt (.run 0x55#8 2)).enc.core = .run 0x55#8 2 ∧ 2 ≤ 2 ∧ 2 ≤ 127 ∧
    (encAt (.run 0x55#8 2)).enc.pend = [] := by decide

theorem witness_CtrlRunRead : (decAt .ctrl).dec.core = .ctrl ∧ 0x02 ≤ (0x7F#8 : Byte).toNat ∧
    (0x7F#8 : Byte).toNat ≤ 0x7F ∧ (decAt .ctrl).dec.pend = [] := by decide

theorem witness_CtrlLitRead : (decAt .ctrl).dec.core = .ctrl ∧ 0x81 ≤ (0x81#8 : Byte).toNat ∧
    (decAt .ctrl).dec.pend = [] := by decide

theorem witness_InvalidControlRaises : (decAt .ctrl).dec.core = .ctrl ∧ (decAt .ctrl).dec.pend = [] := by decide

theorem witness_RunValueEmitsRun : (decAt (.runVal 127)).dec.core = .runVal 127 ∧ 2 ≤ 127 ∧ 127 ≤ 127 ∧
    (decAt (.runVal 127)).dec.pend = [] := by decide

theorem witness_LitPayloadPasses : (decAt (.litPay 1)).dec.core = .litPay 1 ∧ 1 ≤ 1 ∧ 1 ≤ 127 ∧
    (decAt (.litPay 1)).dec.pend = [] := by decide

theorem witness_DrainDiscards : (decAt .drain).dec.core = .drain ∧ (decAt .drain).dec.pend = [] := by decide

theorem witness_EndCtrlTerminates : (decAt .ctrl).dec.core = .ctrl ∧ (decAt .ctrl).dec.pend = [] := by decide

theorem witness_EndRunvalRaises : (decAt (.runVal 2)).dec.core = .runVal 2 ∧ 2 ≤ 2 ∧ 2 ≤ 127 ∧
    (decAt (.runVal 2)).dec.pend = [] := by decide

theorem witness_EndLitpayRaises : (decAt (.litPay 127)).dec.core = .litPay 127 ∧ 1 ≤ 127 ∧ 127 ≤ 127 ∧
    (decAt (.litPay 127)).dec.pend = [] := by decide

theorem witness_EndDrainLeaves : (decAt .drain).dec.core = .drain ∧ (decAt .drain).dec.pend = [] := by decide

theorem witness_EncRunsItsTable : (encAt (.run 0x01#8 3)).enc.pend = [] ∧
    decodeEnc (encAt (.run 0x01#8 3)).enc.core 0x02A#9 = .ok (.eRunBreak 0x2A#8) := ⟨rfl, by rfl⟩

theorem witness_DecRunsItsTable : (decAt (.litPay 2)).dec.pend = [] ∧
    decodeDec (decAt (.litPay 2)).dec.core 0x02A#9 = .ok (.dLitpayByte 0x2A#8) := ⟨rfl, by rfl⟩

/-- Both branches: a row that applies and one that does not. -/
theorem witness_RowsCompleteExactlyWhereTheyApply :
    State.reset.enc.pend = [] ∧ State.reset.dec.pend = [] ∧ Instr.eEndIdle.appliesIn State.reset = true ∧
    Instr.eEndLit.appliesIn State.reset = false ∧ (Instr.dCtrlRun 0x80#8).wellFormed = false := by decide

theorem witness_EncRowsFrame : Instr.eEndLit.row.engine = .enc ∧ (encAt (.lit [0x65#8])).enc.active = true ∧
    ∃ t, exec .eEndLit (encAt (.lit [0x65#8])) = .next t := ⟨rfl, rfl, _, rfl⟩

theorem witness_DecRowsFrame : Instr.dEndLitpay.row.engine = .dec ∧ (decAt (.litPay 1)).dec.active = true ∧
    ∃ t, exec .dEndLitpay (decAt (.litPay 1)) = .next t := ⟨rfl, rfl, _, rfl⟩

/-- ENC in an invocation with two bytes pending (P1 edge 3), in a state that meets the invariant. -/
def encBusy : State :=
  { State.reset with enc :=
      { core := .run 0x01#8 2, active := true, pend := [.byte 0xFF#8, .byte 0x00#8], inCount := 3, outCount := 0,
        result := .none } }

/-- DEC with an error pending (P4 edge 5), in a state that meets the invariant. -/
def decBusy : State :=
  { State.reset with dec :=
      { core := .drain, active := true, pend := [.error .invalidControlByte], inCount := 3, outCount := 2,
        result := .none } }

theorem witness_HandshakeSignals : (encPort false encBusy).outValid = true ∧ (decPort false decBusy).outValid = true :=
  ⟨rfl, rfl⟩

/-- ENC's last token of an invocation pending, in a state that meets the invariant. -/
def encEnding : State :=
  { State.reset with enc :=
      { core := .idle, active := false, pend := [.endTok], inCount := 1, outCount := 2, result := .none } }

theorem witness_OutputTokenEncoding_enc : encBusy.enc.pend = .byte 0xFF#8 :: [.byte 0x00#8] ∧
    encEnding.enc.pend = .endTok :: [] ∧ Inv encEnding ∧ (encPort false encEnding).outValid = true :=
  ⟨rfl, rfl, by decide, rfl⟩

theorem witness_OutputTokenEncoding : decBusy.dec.pend = .error .invalidControlByte :: [] ∧ Inv encBusy ∧
    (encPort false encBusy).outValid = true := ⟨rfl, by decide, rfl⟩

/-- An edge at which both engines are offered a token after reset. -/
def bothOffered : State := atEdge (Pins.offer 0x041#9) (Pins.offer 0x003#9) State.reset

theorem witness_StepRunsDecoded_both : bothOffered.pinsNow.enc.rst = false ∧ bothOffered.pinsNow.enc.inValid = true ∧
    bothOffered.enc.pend = [] ∧ bothOffered.pinsNow.dec.rst = false ∧ bothOffered.pinsNow.dec.inValid = true ∧
    bothOffered.dec.pend = [] ∧
    decodeEnc bothOffered.enc.core (bothOffered.pinsNow.enc.inKind ++ bothOffered.pinsNow.enc.inData) =
      .ok (.eIdleByte 0x41#8) ∧
    decodeDec bothOffered.dec.core (bothOffered.pinsNow.dec.inKind ++ bothOffered.pinsNow.dec.inData) =
      .ok (.dCtrlRun 0x03#8) := ⟨rfl, rfl, rfl, rfl, rfl, rfl, by rfl, by rfl⟩

/-- The hypotheses on an engine at an idle edge, beside the other's offer. -/
theorem witness_StepRunsDecoded_one :
    (atEdge (Pins.offer 0x041#9) Pins.idle State.reset).pinsNow.dec.rst = false ∧
    (atEdge (Pins.offer 0x041#9) Pins.idle State.reset).pinsNow.dec.inValid = false ∧
    (atEdge (Pins.offer 0x041#9) Pins.idle State.reset).pinsNow.dec.outReady = false ∧
    (atEdge (Pins.offer 0x041#9) Pins.idle State.reset).pinsNow.enc.inValid = true ∧
    (atEdge Pins.idle (Pins.offer 0x003#9) State.reset).pinsNow.enc.rst = false ∧
    (atEdge Pins.idle (Pins.offer 0x003#9) State.reset).pinsNow.enc.inValid = false ∧
    (atEdge Pins.idle (Pins.offer 0x003#9) State.reset).pinsNow.enc.outReady = false ∧
    (atEdge Pins.idle (Pins.offer 0x003#9) State.reset).pinsNow.dec.inValid = true := by decide

theorem witness_PlacedWordRuns : decodeTableWord 16 0x100 = some .dEndCtrl ∧
    decodeTableWord 16 0x080 = some .dCtrlInvalid80 := ⟨by rfl, by rfl⟩

theorem witness_PendingOutputBlocksInput : encBusy.enc.pend ≠ [] ∧ (Instr.eRunExtend 0x01#8).row.engine = .enc ∧
    decBusy.dec.pend ≠ [] ∧ (Instr.dDrainByte 0x01#8).row.engine = .dec ∧
    (atEdge (Pins.offer 0x001#9) Pins.take encBusy).pinsNow.enc.rst = false ∧
    (atEdge (Pins.offer 0x001#9) Pins.take encBusy).pinsNow.enc.outReady = false ∧
    (atEdge Pins.take (Pins.offer 0x001#9) decBusy).pinsNow.dec.rst = false ∧
    (atEdge Pins.take (Pins.offer 0x001#9) decBusy).pinsNow.dec.outReady = false := by decide

theorem witness_DeliverFromEnc : (atEdge Pins.take Pins.idle encBusy).pinsNow.enc.rst = false ∧
    (atEdge Pins.take Pins.idle encBusy).pinsNow.enc.outReady = true ∧
    encBusy.enc.pend = .byte 0xFF#8 :: [.byte 0x00#8] ∧ isError (.byte 0xFF#8) = false := by decide

/-- The clause on an `Error` token in ENC's queue. -/
theorem witness_DeliverFromEnc_error :
    (atEdge Pins.take Pins.idle { State.reset with enc := { EncState.reset with pend := [.error .truncatedRecord] } }
      ).pinsNow.enc.outReady = true ∧ isError (.error .truncatedRecord) = true := by decide

theorem witness_DeliverFromDec : (atEdge Pins.idle Pins.take decBusy).pinsNow.dec.rst = false ∧
    (atEdge Pins.idle Pins.take decBusy).pinsNow.dec.outReady = true ∧
    decBusy.dec.pend = .error .invalidControlByte :: [] ∧
    ∃ s', encEdge Pins.idle (atEdge Pins.idle Pins.take decBusy).advance = .next s' := ⟨rfl, rfl, rfl, _, rfl⟩

theorem witness_OneActionPerEdge : Pins.reset.rst = true ∧ Pins.idle.rst = false ∧
    acceptEnabled Pins.idle encBusy.enc = false ∧ deliverEnabled Pins.idle encBusy.enc = false ∧
    acceptEnabled Pins.idle decBusy.dec = false ∧ deliverEnabled Pins.idle decBusy.dec = false := by decide

theorem witness_ResetEdge : (atEdge Pins.reset Pins.take encBusy).pinsNow.enc.rst = true ∧
    (atEdge Pins.take Pins.reset encBusy).pinsNow.dec.rst = true ∧
    ∃ s', encEdge Pins.take (atEdge Pins.take Pins.reset encBusy).advance = .next s' := ⟨rfl, rfl, _, rfl⟩

theorem witness_StreamsAppendOnly : (∃ t, step bothOffered = .next t) ∧ bothOffered.pinsNow.enc.rst = false ∧
    bothOffered.pinsNow.dec.rst = false := ⟨⟨_, rfl⟩, rfl, rfl⟩

theorem witness_ResetMeetsInvariants : 1 ≤ 1 ∧ Inv (State.resetWith 1) := by decide

theorem witness_StepKeepsInv : Inv (atEdge Pins.take Pins.idle encBusy) ∧
    ∃ t, step (atEdge Pins.take Pins.idle encBusy) = .next t := ⟨by decide, _, rfl⟩

theorem witness_InvNeverStops : Inv decBusy ∧ Inv encBusy ∧ Inv bothOffered :=
  ⟨by decide, by decide, by decide⟩

/-- ENC has taken `07` and `End` and DEC has taken what ENC delivered (EV2, DV4). -/
def roundTripped : State :=
  { cntW := 32
    enc := { core := .idle, active := false, pend := [], inCount := 1, outCount := 2, result := .ok }
    dec := { core := .ctrl, active := false, pend := [], inCount := 2, outCount := 1, result := .ok }
    encTrace := { accepted := [.byte 0x07#8, .endTok], delivered := [.byte 0xFF#8, .byte 0x07#8, .endTok] }
    decTrace := { accepted := [.byte 0xFF#8, .byte 0x07#8, .endTok], delivered := [.byte 0x07#8, .endTok] }
    edges := [{ enc := Pins.offer 0x041#9, dec := Pins.offer 0x003#9 }]
    tick := 0 }

theorem witness_StepKeepsEncTrace : EncTraceInv roundTripped ∧ ∃ t, step roundTripped = .next t :=
  ⟨by decide, _, rfl⟩

theorem witness_StepKeepsDecTrace : DecTraceInv roundTripped ∧ ∃ t, step roundTripped = .next t :=
  ⟨by decide, _, rfl⟩

theorem witness_MachineRoundTrip : EncTraceInv roundTripped ∧ DecTraceInv roundTripped ∧
    roundTripped.encTrace.accepted = invocation [0x07#8] ∧ roundTripped.enc.pend = [] ∧
    roundTripped.decTrace.accepted = invocation (bytesOf roundTripped.encTrace.delivered) ∧
    roundTripped.dec.pend = [] := by decide

/-- Two states that differ in DEC and its pins only, and two that differ in ENC and its pins only; all step. -/
theorem witness_EnginesIndependent :
    encView bothOffered = encView (atEdge (Pins.offer 0x041#9) Pins.take { decBusy with enc := EncState.reset }) ∧
    decView bothOffered = decView (atEdge Pins.take (Pins.offer 0x003#9) { encBusy with dec := DecState.reset }) ∧
    (∃ t, step bothOffered = .next t) ∧
    (∃ t, step (atEdge (Pins.offer 0x041#9) Pins.take { decBusy with enc := EncState.reset }) = .next t) ∧
    (∃ t, step (atEdge Pins.take (Pins.offer 0x003#9) { encBusy with dec := DecState.reset }) = .next t) :=
  ⟨by decide, by decide, ⟨_, rfl⟩, ⟨_, rfl⟩, ⟨_, rfl⟩⟩

theorem witness_EdgeOrderImmaterial : ∃ t, bothEdges bothOffered.pinsNow bothOffered = .next t := ⟨_, rfl⟩

theorem witness_DecAcceptsLegalRecords :
    ∀ r ∈ [Record.run 127 0xAA#8, Record.lit [0x05#8], Record.run 2 0x00#8], r.legal = true := by decide

theorem witness_DecErrorOutputs : (∀ r ∈ [Record.run 2 0x07#8], r.legal = true) ∧ (0x80#8 : Byte) = 0x80#8 ∧
    2 ≤ 5 ∧ 5 ≤ 127 ∧ ([0x01#8] : List Byte).length < 2 ∧ 2 ≤ 127 := by decide

theorem witness_RoundTrip : ∃ x, [0x02#8, 0x05#8] = encBytes x := ⟨[0x05#8, 0x05#8], by decide⟩

/-- Both sides of the equivalence (CV5). -/
theorem witness_CanonicalStreams : encBytes [0x01#8, 0x02#8, 0x02#8] = [0xFF#8, 0x01#8, 0x02#8, 0x02#8] ∧
    (∀ r ∈ [Record.lit [0x01#8], Record.run 2 0x02#8], r.emittable = true) ∧
    adjacencyOk [Record.lit [0x01#8], Record.run 2 0x02#8] = true ∧
    recordBytes [Record.lit [0x01#8], Record.run 2 0x02#8] = [0xFF#8, 0x01#8, 0x02#8, 0x02#8] := by decide

/-- EV3's invocation, scheduled. -/
def encScheduled : State :=
  { State.reset with edges := encOnly (eagerPins encTable .idle (invocation [0x07#8, 0x07#8])) }

theorem witness_EncInvocationRuns : encScheduled.enc.core = .idle ∧ encScheduled.enc.active = false ∧
    encScheduled.enc.pend = [] ∧
    encScheduled.edges = encOnly (eagerPins encTable .idle (invocation [0x07#8, 0x07#8])) ++ [] := by decide

/-- DV13's invocation, scheduled: it ends in an error. -/
def decScheduled : State :=
  { State.reset with edges := decOnly (eagerPins decTable .ctrl (invocation [0xFE#8, 0x01#8])) }

theorem witness_DecInvocationRuns : decScheduled.dec.core = .ctrl ∧ decScheduled.dec.active = false ∧
    decScheduled.dec.pend = [] ∧
    decScheduled.edges = decOnly (eagerPins decTable .ctrl (invocation [0xFE#8, 0x01#8])) ++ [] := by decide

end Sys2Proof.Tests
end

section
/-! SUPPORT. Each row's meaning is an `Accept` on the row's own engine, and each engine's decoder answers rows of that
engine only (R87). -/

namespace Sys2Proof.Machine

/-- The meaning of a row is an `Accept` on the engine of that row, by some rule (R100, R140). -/
theorem exec_is_accept (i : Instr) :
    (i.row.engine = .enc ∧ ∃ t rule, exec i = acceptEnc t rule) ∨
    (i.row.engine = .dec ∧ ∃ t rule, exec i = acceptDec t rule) := by
  cases i with
  | eIdleByte | eLitCap | eLitMatch | eLitAppend | eRunExtend | eRunCap | eRunBreak | eEndIdle | eEndLit | eEndRun =>
    exact .inl ⟨rfl, _, _, rfl⟩
  | dCtrlRun | dCtrlLit | dCtrlInvalid00 | dCtrlInvalid01 | dCtrlInvalid80 | dRunvalByte | dLitpayByte | dDrainByte
  | dEndCtrl | dEndRunval | dEndLitpay | dEndDrain =>
    exact .inr ⟨rfl, _, _, rfl⟩

/-- ENC's decoder answers rows of ENC only. -/
theorem decodeEnc_engine {core : EncCore} {tw : TokenWord} {i : Instr} (h : decodeEnc core tw = .ok i) :
    i.row.engine = .enc := by
  unfold decodeEnc at h
  repeat' split at h
  all_goals cases h <;> rfl

/-- Each of the five outcomes of a control byte is a row of DEC. -/
theorem decodeControl_engine (c : Byte) : (decodeControl c).row.engine = .dec := by
  unfold decodeControl
  split_ifs <;> rfl

/-- DEC's decoder answers rows of DEC only. -/
theorem decodeDec_engine {core : DecCore} {tw : TokenWord} {i : Instr} (h : decodeDec core tw = .ok i) :
    i.row.engine = .dec := by
  unfold decodeDec at h
  split at h
  case h_1 => cases h; exact decodeControl_engine _
  all_goals
    repeat' split at h
    all_goals cases h <;> rfl

/-- A row that ENC's decoder answers runs as an `Accept` on ENC. -/
theorem exec_of_decodeEnc {core : EncCore} {tw : TokenWord} {i : Instr} (h : decodeEnc core tw = .ok i) :
    ∃ t rule, exec i = acceptEnc t rule := by
  obtain ⟨-, hexec⟩ | ⟨hdec, -⟩ := exec_is_accept i
  · exact hexec
  · exact absurd ((decodeEnc_engine h).symm.trans hdec) (by decide)

/-- A row that DEC's decoder answers runs as an `Accept` on DEC. -/
theorem exec_of_decodeDec {core : DecCore} {tw : TokenWord} {i : Instr} (h : decodeDec core tw = .ok i) :
    ∃ t rule, exec i = acceptDec t rule := by
  obtain ⟨henc, -⟩ | ⟨-, hexec⟩ := exec_is_accept i
  · exact absurd ((decodeDec_engine h).symm.trans henc) (by decide)
  · exact hexec

end Sys2Proof.Machine
end

section
/-! SUPPORT. One engine's part of the machine, and operations that read and write that part only. Operations on parts
that are apart commute, and neither changes what the other reads: R3 and R61 in the abstract. -/

namespace Sys2Proof

open Machine

/-- A part of the state: what belongs to it, and how to write it from one state into another. -/
structure StatePart (β : Type) where
  /-- What an operation on the part may read. -/
  view : State → β
  /-- `put t s` is `s` with what the part may write taken from `t`. -/
  put : State → State → State
  put_of_view_eq : ∀ {s₁ s₂ : State}, view s₁ = view s₂ → put s₁ s₂ = s₂
  view_put : ∀ {s₁ s₂ : State} (t : State), view s₁ = view s₂ → view (put t s₁) = view (put t s₂)

/-- `f` reads and writes `P` only: in a state with the same view it answers the same, put into that state. -/
def StatePart.Local {β : Type} (P : StatePart β) (f : State → Host.Outcome State Fault Refusal) : Prop :=
  ∀ ⦃s₁ s₂ t : State⦄, P.view s₁ = P.view s₂ → f s₁ = .next t → f s₂ = .next (P.put t s₂)

/-- No operation on one of the two parts is seen by the other. -/
structure StatePart.Apart {β γ : Type} (P : StatePart β) (Q : StatePart γ) : Prop where
  view_left : ∀ t s : State, P.view (Q.put t s) = P.view s
  view_right : ∀ t s : State, Q.view (P.put t s) = Q.view s
  put_comm : ∀ m t s : State, P.put m (Q.put t s) = Q.put t (P.put m s)

namespace StatePart

variable {β γ : Type} {P : StatePart β} {Q : StatePart γ} {f g : State → Host.Outcome State Fault Refusal}

theorem Apart.symm (h : P.Apart Q) : Q.Apart P :=
  ⟨h.view_right, h.view_left, fun m t s => (h.put_comm t m s).symm⟩

/-- The frame of a local operation: outside its part the state is as before. -/
theorem Local.frame {s t : State} (hf : P.Local f) (h : f s = .next t) : t = P.put t s :=
  Host.Outcome.next.inj (h.symm.trans (hf rfl h))

/-- A local operation leaves equal views equal. -/
theorem Local.view_next {s₁ s₂ t₁ t₂ : State} (hf : P.Local f) (hv : P.view s₁ = P.view s₂) (h₁ : f s₁ = .next t₁)
    (h₂ : f s₂ = .next t₂) : P.view t₁ = P.view t₂ := by
  have ht₂ : t₂ = P.put t₁ s₂ := Host.Outcome.next.inj (h₂.symm.trans (hf hv h₁))
  calc P.view t₁ = P.view (P.put t₁ s₁) := congrArg P.view (hf.frame h₁)
    _ = P.view (P.put t₁ s₂) := P.view_put t₁ hv
    _ = P.view t₂ := congrArg P.view ht₂.symm

/-- An operation on another part leaves the view as it is. -/
theorem Local.view_other {s t : State} (hPQ : P.Apart Q) (hg : Q.Local g) (h : g s = .next t) :
    P.view t = P.view s :=
  (congrArg P.view (hg.frame h)).trans (hPQ.view_left t s)

/-- Operations on parts that are apart can be run in the other order, with the same end state. -/
theorem Local.comm {s m t : State} (hPQ : P.Apart Q) (hf : P.Local f) (hg : Q.Local g) (hfs : f s = .next m)
    (hgm : g m = .next t) : ∃ m', g s = .next m' ∧ f m' = .next t := by
  have hgs : g s = .next (Q.put t s) := hg (Local.view_other hPQ.symm hf hfs) hgm
  have hft : f (Q.put t s) = .next (P.put m (Q.put t s)) := hf (hPQ.view_left t s).symm hfs
  have hend : P.put m (Q.put t s) = t := calc
    P.put m (Q.put t s) = Q.put t (P.put m s) := hPQ.put_comm m t s
    _ = Q.put t m := congrArg (Q.put t) (hf.frame hfs).symm
    _ = t := (hg.frame hgm).symm
  exact ⟨_, hgs, hft.trans (congrArg _ hend)⟩

/-- Doing nothing is local to every part. -/
theorem Local.idle : P.Local .next := by
  intro s₁ s₂ t hv h
  cases h
  rw [P.put_of_view_eq hv]

end StatePart

end Sys2Proof
end

section
/-! SUPPORT. The two engines' parts of the state, and that everything an edge does at an engine is local to its part. -/

namespace Sys2Proof

open Machine

theorem encView_eq_iff {s₁ s₂ : State} : encView s₁ = encView s₂ ↔
    s₁.cntW = s₂.cntW ∧ s₁.enc = s₂.enc ∧ s₁.encTrace = s₂.encTrace ∧ s₁.edges.map Edge.enc = s₂.edges.map Edge.enc := by
  simp [encView]

theorem decView_eq_iff {s₁ s₂ : State} : decView s₁ = decView s₂ ↔
    s₁.cntW = s₂.cntW ∧ s₁.dec = s₂.dec ∧ s₁.decTrace = s₂.decTrace ∧ s₁.edges.map Edge.dec = s₂.edges.map Edge.dec := by
  simp [decView]

/-- ENC's part: it reads `encView` and writes ENC's record and streams. -/
def encPart : StatePart (Nat × EncState × Trace × List Pins) where
  view := encView
  put t s := s.setEnc t.enc t.encTrace
  put_of_view_eq hv := by
    obtain ⟨-, henc, htrace, -⟩ := encView_eq_iff.mp hv
    rw [henc, htrace]
    rfl
  view_put t hv := by
    obtain ⟨hw, -, -, hpins⟩ := encView_eq_iff.mp hv
    simp [encView, hw, hpins]

/-- DEC's part: it reads `decView` and writes DEC's record and streams. -/
def decPart : StatePart (Nat × DecState × Trace × List Pins) where
  view := decView
  put t s := s.setDec t.dec t.decTrace
  put_of_view_eq hv := by
    obtain ⟨-, hdec, htrace, -⟩ := decView_eq_iff.mp hv
    rw [hdec, htrace]
    rfl
  view_put t hv := by
    obtain ⟨hw, -, -, hpins⟩ := decView_eq_iff.mp hv
    simp [decView, hw, hpins]

/-- The engines share no state (R3). -/
theorem encPart_apart_decPart : encPart.Apart decPart where
  view_left _ _ := rfl
  view_right _ _ := rfl
  put_comm _ _ _ := rfl

theorem resetEnc_local : encPart.Local (fun s => .next (resetEnc s)) := by
  intro s₁ s₂ t _ h
  cases h
  rfl

theorem resetDec_local : decPart.Local (fun s => .next (resetDec s)) := by
  intro s₁ s₂ t _ h
  cases h
  rfl

theorem acceptEnc_local (t : InTok) (rule : EncState → Option EncState) : encPart.Local (acceptEnc t rule) := by
  intro s₁ s₂ t' hv h
  obtain ⟨hw, henc, htrace, -⟩ := encView_eq_iff.mp hv
  obtain ⟨hpend, rfl⟩ | ⟨hpend, e, hrule, rfl⟩ := acceptEnc_cases h
  · rw [acceptEnc_of_pending (henc ▸ hpend), encPart.put_of_view_eq hv]
  · rw [acceptEnc_of_rule (henc ▸ hpend) (henc ▸ hw ▸ hrule), ← htrace]
    rfl

theorem acceptDec_local (t : InTok) (rule : DecState → Option DecState) : decPart.Local (acceptDec t rule) := by
  intro s₁ s₂ t' hv h
  obtain ⟨hw, hdec, htrace, -⟩ := decView_eq_iff.mp hv
  obtain ⟨hpend, rfl⟩ | ⟨hpend, e, hrule, rfl⟩ := acceptDec_cases h
  · rw [acceptDec_of_pending (hdec ▸ hpend), decPart.put_of_view_eq hv]
  · rw [acceptDec_of_rule (hdec ▸ hpend) (hdec ▸ hw ▸ hrule), ← htrace]
    rfl

theorem deliverEnc_local : encPart.Local deliverEnc := by
  intro s₁ s₂ t hv h
  obtain ⟨hw, henc, htrace, -⟩ := encView_eq_iff.mp hv
  obtain ⟨hpend, rfl⟩ | ⟨o, rest, r, hpend, hr, rfl⟩ := deliverEnc_cases h
  · rw [encPart.put_of_view_eq hv]
    simp [deliverEnc, ← henc, hpend]
  · simp [deliverEnc, ← henc, ← hw, ← htrace, hpend, hr, encPart]

theorem deliverDec_local : decPart.Local deliverDec := by
  intro s₁ s₂ t hv h
  obtain ⟨hw, hdec, htrace, -⟩ := decView_eq_iff.mp hv
  obtain ⟨hpend, rfl⟩ | ⟨o, rest, hpend, rfl⟩ := deliverDec_cases h
  · rw [decPart.put_of_view_eq hv]
    simp [deliverDec, ← hdec, hpend]
  · simp [deliverDec, ← hdec, ← hw, ← htrace, hpend, decPart]

/-- The choice both edges make, once the tests are made: `Reset`, the decoded row, `Deliver` or nothing (R187). -/
def edgeAction (rst accept deliver : Bool) (row : Except Fault Instr) (onReset : State → State)
    (onDeliver : State → Host.Outcome State Fault Refusal) (s : State) : Host.Outcome State Fault Refusal :=
  if rst then .next (onReset s)
  else if accept then
    match row with
    | .ok i => exec i s
    | .error f => .fault f
  else if deliver then onDeliver s
  else .next s

theorem encEdge_eq_edgeAction (p : Pins) (s : State) :
    encEdge p s = edgeAction p.rst (acceptEnabled p s.enc) (deliverEnabled p s.enc) (decodeEnc s.enc.core p.tokenWord)
      resetEnc deliverEnc s := rfl

theorem decEdge_eq_edgeAction (p : Pins) (s : State) :
    decEdge p s = edgeAction p.rst (acceptEnabled p s.dec) (deliverEnabled p s.dec) (decodeDec s.dec.core p.tokenWord)
      resetDec deliverDec s := rfl

/-- The action taken at an edge is local when each of the actions it chooses among is. -/
theorem edgeAction_local {β : Type} {P : StatePart β} {rst accept deliver : Bool} {row : Except Fault Instr}
    {onReset : State → State} {onDeliver : State → Host.Outcome State Fault Refusal}
    (hreset : P.Local (fun s => .next (onReset s))) (hrow : ∀ i, row = .ok i → P.Local (exec i))
    (hdeliver : P.Local onDeliver) : P.Local (edgeAction rst accept deliver row onReset onDeliver) := by
  match rst, accept, row, deliver with
  | true, _, _, _ => exact hreset
  | false, true, .ok i, _ => exact hrow i rfl
  | false, true, .error f, _ => intro _ _ _ _ h; cases h
  | false, false, _, true => exact hdeliver
  | false, false, _, false => exact StatePart.Local.idle

theorem encEdge_local (p : Pins) : encPart.Local (encEdge p) := by
  intro s₁ s₂ t hv h
  have henc : s₁.enc = s₂.enc := (encView_eq_iff.mp hv).2.1
  rw [encEdge_eq_edgeAction] at h ⊢
  rw [← henc]
  refine edgeAction_local resetEnc_local (fun i hi => ?_) deliverEnc_local hv h
  obtain ⟨tok, rule, hexec⟩ := exec_of_decodeEnc hi
  exact hexec ▸ acceptEnc_local tok rule

theorem decEdge_local (p : Pins) : decPart.Local (decEdge p) := by
  intro s₁ s₂ t hv h
  have hdec : s₁.dec = s₂.dec := (decView_eq_iff.mp hv).2.1
  rw [decEdge_eq_edgeAction] at h ⊢
  rw [← hdec]
  refine edgeAction_local resetDec_local (fun i hi => ?_) deliverDec_local hv h
  obtain ⟨tok, rule, hexec⟩ := exec_of_decodeDec hi
  exact hexec ▸ acceptDec_local tok rule

end Sys2Proof
end

section
/-! PROOFS. The statements of 00_scope.md: the engines' parts of an edge commute, and neither sees the other. -/

namespace Sys2Proof

open Machine

theorem bothEdges_eq_next_iff {p : Edge} {s t : State} :
    bothEdges p s = .next t ↔ ∃ m, encEdge p.enc s = .next m ∧ decEdge p.dec m = .next t := by
  refine ⟨bothEdges_cases, ?_⟩
  rintro ⟨m, henc, hdec⟩
  simpa [bothEdges, henc] using hdec

/-- Settles O51: the two parts of an edge are local to parts of the state that are apart. -/
theorem edgeOrderImmaterial : Obligations.EdgeOrderImmaterial := by
  intro p s t
  rw [bothEdges_eq_next_iff]
  constructor
  · rintro ⟨m, henc, hdec⟩
    exact (encEdge_local p.enc).comm encPart_apart_decPart (decEdge_local p.dec) henc hdec
  · rintro ⟨m, hdec, henc⟩
    exact (decEdge_local p.dec).comm encPart_apart_decPart.symm (encEdge_local p.enc) hdec henc

/-- What ENC holds after a step is what its own part of the edge leaves, run on the state before the step. -/
theorem step_encView {s t : State} (h : step s = .next t) :
    ∃ m, encEdge s.pinsNow.enc s.advance = .next m ∧ encView t = encView m := by
  obtain ⟨m, henc, hdec⟩ := bothEdges_cases h
  exact ⟨m, henc, (decEdge_local _).view_other encPart_apart_decPart hdec⟩

/-- What DEC holds after a step is what its own part of the edge leaves, run on the state before the step. -/
theorem step_decView {s t : State} (h : step s = .next t) :
    ∃ m, decEdge s.pinsNow.dec s.advance = .next m ∧ decView t = decView m := by
  obtain ⟨m, hdec, henc⟩ := (edgeOrderImmaterial _ _ _).mp h
  exact ⟨m, hdec, (encEdge_local _).view_other encPart_apart_decPart.symm henc⟩

/-- ENC's pins at the next edge are the first of ENC's pins to come. -/
theorem pinsNow_enc (s : State) : s.pinsNow.enc = (s.edges.map Edge.enc).headD Pins.idle := by
  unfold State.pinsNow
  cases s.edges <;> rfl

/-- DEC's pins at the next edge are the first of DEC's pins to come. -/
theorem pinsNow_dec (s : State) : s.pinsNow.dec = (s.edges.map Edge.dec).headD Pins.idle := by
  unfold State.pinsNow
  cases s.edges <;> rfl

/-- What ENC holds settles its pins at the next edge and what it holds when they are taken off the list. -/
theorem encView_advance {s₁ s₂ : State} (hv : encView s₁ = encView s₂) :
    s₁.pinsNow.enc = s₂.pinsNow.enc ∧ encView s₁.advance = encView s₂.advance := by
  obtain ⟨hw, henc, htrace, hpins⟩ := encView_eq_iff.mp hv
  exact ⟨by rw [pinsNow_enc, pinsNow_enc, hpins], by simp [encView, hw, henc, htrace, hpins]⟩

/-- What DEC holds settles its pins at the next edge and what it holds when they are taken off the list. -/
theorem decView_advance {s₁ s₂ : State} (hv : decView s₁ = decView s₂) :
    s₁.pinsNow.dec = s₂.pinsNow.dec ∧ decView s₁.advance = decView s₂.advance := by
  obtain ⟨hw, hdec, htrace, hpins⟩ := decView_eq_iff.mp hv
  exact ⟨by rw [pinsNow_dec, pinsNow_dec, hpins], by simp [decView, hw, hdec, htrace, hpins]⟩

/-- Settles O50: each engine's view after a step is what its own local edge leaves. -/
theorem enginesIndependent : Obligations.EnginesIndependent := by
  intro s₁ s₂ t₁ t₂ h₁ h₂
  constructor
  · intro hv
    obtain ⟨hpins, hadv⟩ := encView_advance hv
    obtain ⟨m₁, hm₁, ht₁⟩ := step_encView h₁
    obtain ⟨m₂, hm₂, ht₂⟩ := step_encView h₂
    have hm : encView m₁ = encView m₂ := (encEdge_local _).view_next hadv hm₁ (hpins ▸ hm₂)
    rw [ht₁, ht₂, hm]
  · intro hv
    obtain ⟨hpins, hadv⟩ := decView_advance hv
    obtain ⟨m₁, hm₁, ht₁⟩ := step_decView h₁
    obtain ⟨m₂, hm₂, ht₂⟩ := step_decView h₂
    have hm : decView m₁ = decView m₂ := (decEdge_local _).view_next hadv hm₁ (hpins ▸ hm₂)
    rw [ht₁, ht₂, hm]

end Sys2Proof
end

section
/-! PROOFS. The statements of 10_state.md about the handshake (R31) and the state after reset (R38). -/

namespace Sys2Proof

open Machine

section Handshake
variable {κ ρ : Type} (rst : Bool) (e : Engine κ ρ)

/-- `in_ready` by the pending tokens (R31). -/
theorem inReady_eq_decide : e.inReady rst = decide (e.pend = [] ∧ rst = false) := by
  rw [Bool.eq_iff_iff]
  simp [Engine.inReady, Engine.busy_eq_false]

/-- `out_valid` by the pending tokens (R31). -/
theorem outValid_eq_decide : e.outValid rst = decide (e.pend ≠ [] ∧ rst = false) := by
  rw [Bool.eq_iff_iff]
  simp [Engine.outValid, Engine.busy_eq_true]

/-- While `out_valid` is 1 the token shown is the head of `pend` (R31, R85). -/
theorem shown_of_outValid (h : e.outValid rst = true) : ∃ t rest, e.pend = t :: rest ∧ e.shown rst = some t := by
  rw [outValid_eq_decide, decide_eq_true_iff] at h
  obtain ⟨hpend, rfl⟩ := h
  obtain ⟨t, rest, hcons⟩ := List.exists_cons_of_ne_nil hpend
  exact ⟨t, rest, hcons, by simp [Engine.shown, hcons]⟩

/-- An engine is never both ready for a token and showing one (R31). -/
theorem not_inReady_and_outValid : ¬ (e.inReady rst = true ∧ e.outValid rst = true) := by
  rintro ⟨hready, hvalid⟩
  rw [inReady_eq_decide, decide_eq_true_iff] at hready
  rw [outValid_eq_decide, decide_eq_true_iff] at hvalid
  exact hvalid.1 hready.1

end Handshake

/-- While ENC's `out_valid` is 1 its pins encode the head of `pend` (R31, R85). -/
theorem encPort_of_outValid {rst : Bool} {s : State} (h : (encPort rst s).outValid = true) :
    ∃ t rest, s.enc.pend = t :: rest ∧ (encPort rst s).outKind = outKindOf t ∧
      (encPort rst s).outData = outDataOf t := by
  obtain ⟨t, rest, hpend, hshown⟩ := shown_of_outValid rst s.enc h
  exact ⟨t, rest, hpend, by simp [encPort, hshown], by simp [encPort, hshown]⟩

/-- While DEC's `out_valid` is 1 its pins encode the head of `pend` (R31, R85). -/
theorem decPort_of_outValid {rst : Bool} {s : State} (h : (decPort rst s).outValid = true) :
    ∃ t rest, s.dec.pend = t :: rest ∧ (decPort rst s).outKind = outKindOf t ∧
      (decPort rst s).outData = outDataOf t := by
  obtain ⟨t, rest, hpend, hshown⟩ := shown_of_outValid rst s.dec h
  exact ⟨t, rest, hpend, by simp [decPort, hshown], by simp [decPort, hshown]⟩

/-- Settles O33: both engines' signals are those of one record, and no port reads `State.edges`. -/
theorem handshakeSignals : Obligations.HandshakeSignals := by
  intro s rst
  refine ⟨⟨inReady_eq_decide rst s.enc, outValid_eq_decide rst s.enc, encPort_of_outValid,
    not_inReady_and_outValid rst s.enc⟩, ⟨inReady_eq_decide rst s.dec, outValid_eq_decide rst s.dec,
    decPort_of_outValid, not_inReady_and_outValid rst s.dec⟩, fun es => ⟨?_, ?_⟩⟩
  · rfl
  · rfl

/-- Settles O43: each field is its reset value by definition, and the pins are computed from it. -/
theorem resetState : Obligations.ResetState := by
  refine ⟨fun w => ⟨?cntW, ?enc, ?dec⟩, ?defaultWidth, ?encStatus, ?decStatus, ?encReady, ?decReady, ?encValid,
    ?decValid⟩
  all_goals rfl

/-- ENC's record after reset meets its invariant, whatever the width. -/
theorem encInv_reset (w : Nat) : EncInv w EncState.reset := by
  simp [EncInv, EncState.reset, encCoreLegal]

/-- DEC's record after reset meets its invariant, whatever the width. -/
theorem decInv_reset (w : Nat) : DecInv w DecState.reset := by
  simp [DecInv, DecState.reset, decCoreLegal]

/-- With nothing accepted or delivered ENC's streams agree with its record after reset. -/
theorem encTraceInv_resetWith (w : Nat) : EncTraceInv (State.resetWith w) := by
  refine ⟨rfl, rfl, List.suffix_refl [], ?_, rfl, fun _ => rfl, fun hpend => absurd rfl hpend⟩
  exact (Nat.zero_mod _).symm

/-- With nothing accepted or delivered DEC's streams agree with its record after reset. -/
theorem decTraceInv_resetWith (w : Nat) : DecTraceInv (State.resetWith w) := by
  refine ⟨rfl, rfl, List.suffix_refl [], ?_, rfl, fun _ => rfl, fun hpend => absurd rfl hpend⟩
  exact (Nat.zero_mod _).symm

/-- Settles O45: each engine's record and streams meet their invariants after reset. -/
theorem resetMeetsInvariants : Obligations.ResetMeetsInvariants :=
  fun w hw => ⟨⟨hw, encInv_reset w, decInv_reset w⟩, encTraceInv_resetWith w, decTraceInv_resetWith w⟩

end Sys2Proof
end

section
/-! SUPPORT. What each row leaves when it applies and nothing is pending, and with that both engines as runs of their
transition tables (R114, R151). -/

namespace Sys2Proof.Machine

/-- Writing the core a record already has changes nothing. -/
theorem Engine.goto_of_core_eq {κ ρ : Type} {k : κ} {e : Engine κ ρ} (h : e.core = k) : e.goto k = e := by
  rw [← h]
  rfl

section EncRows
variable {s : State} (hpend : s.enc.pend = [])
include hpend

/-- E.IDLE.BYTE (R103). -/
theorem exec_eIdleByte (b : Byte) (hcore : s.enc.core = .idle) :
    exec (.eIdleByte b) s = .next (acceptedEnc s (.byte b) (.lit [b]) []) :=
  acceptEnc_accepted hpend fun e he _ => by simp [he, hcore]

/-- E.LIT.CAP (R104). -/
theorem exec_eLitCap (b : Byte) {buf : List Byte} (hcore : s.enc.core = .lit buf) (hfull : litFull buf = true) :
    exec (.eLitCap b) s = .next (acceptedEnc s (.byte b) (.lit [b]) (litTokens buf)) :=
  acceptEnc_accepted hpend fun e he _ => by simp only [he, hcore, hfull, if_true, flushLit_eq]

/-- E.LIT.MATCH (R106). -/
theorem exec_eLitMatch (b : Byte) {buf : List Byte} (hcore : s.enc.core = .lit buf) (hopen : litOpen buf = true)
    (hlast : matchesLast b buf = true) :
    exec (.eLitMatch b) s = .next (acceptedEnc s (.byte b) (.run b 2)
      (if buf.dropLast = [] then [] else litTokens buf.dropLast)) :=
  acceptEnc_accepted hpend fun e he _ => by
    simp only [he, hcore, hopen, hlast, Bool.and_self, if_true, List.length_pos_iff, flushLit_eq]
    by_cases hempty : buf.dropLast = [] <;> simp [hempty]

/-- E.LIT.APPEND (R107). -/
theorem exec_eLitAppend (b : Byte) {buf : List Byte} (hcore : s.enc.core = .lit buf) (hopen : litOpen buf = true)
    (hlast : matchesLast b buf = false) :
    exec (.eLitAppend b) s = .next (acceptedEnc s (.byte b) (.lit (buf ++ [b])) []) :=
  acceptEnc_accepted hpend fun e he _ => by
    simp only [he, hcore, hopen, hlast, Bool.not_false, Bool.and_self, if_true, Engine.emitAll_nil]

/-- E.RUN.EXTEND (R108). -/
theorem exec_eRunExtend (v : Byte) {n : Nat} (hcore : s.enc.core = .run v n) (hopen : runOpen n = true) :
    exec (.eRunExtend v) s = .next (acceptedEnc s (.byte v) (.run v (n + 1)) []) :=
  acceptEnc_accepted hpend fun e he _ => by simp only [he, hcore, hopen, and_self, if_true, Engine.emitAll_nil]

/-- E.RUN.CAP (R109). -/
theorem exec_eRunCap (v : Byte) {n : Nat} (hcore : s.enc.core = .run v n) (hfull : runFull n = true) :
    exec (.eRunCap v) s = .next (acceptedEnc s (.byte v) (.lit [v]) (runTokens n v)) :=
  acceptEnc_accepted hpend fun e he _ => by simp only [he, hcore, hfull, and_self, if_true, flushRun_eq]

/-- E.RUN.BREAK (R110). -/
theorem exec_eRunBreak {b v : Byte} {n : Nat} (hcore : s.enc.core = .run v n) (hlegal : runLegal n = true)
    (hne : b ≠ v) : exec (.eRunBreak b) s = .next (acceptedEnc s (.byte b) (.lit [b]) (runTokens n v)) :=
  acceptEnc_accepted hpend fun e he _ => by
    simp only [he, hcore, hlegal, hne, ne_eq, not_false_eq_true, and_self, if_true, flushRun_eq]

/-- E.END.IDLE (R111). -/
theorem exec_eEndIdle (hcore : s.enc.core = .idle) :
    exec .eEndIdle s = .next (acceptedEnc s .endTok .idle [.endTok]) :=
  acceptEnc_accepted hpend fun e he _ => by
    simp only [he, hcore, Engine.emit_eq]
    rw [Engine.goto_of_core_eq ((Engine.emitAll_core _ e).trans (he.trans hcore))]

/-- E.END.LIT (R112). -/
theorem exec_eEndLit {buf : List Byte} (hcore : s.enc.core = .lit buf) (hlegal : litLegal buf = true) :
    exec .eEndLit s = .next (acceptedEnc s .endTok .idle (litTokens buf ++ [.endTok])) :=
  acceptEnc_accepted hpend fun e he _ => by
    simp only [he, hcore, hlegal, if_true, flushLit_eq, Engine.emit_eq, Engine.emitAll_emitAll]

/-- E.END.RUN (R113). -/
theorem exec_eEndRun {v : Byte} {n : Nat} (hcore : s.enc.core = .run v n) (hlegal : runLegal n = true) :
    exec .eEndRun s = .next (acceptedEnc s .endTok .idle (runTokens n v ++ [.endTok])) :=
  acceptEnc_accepted hpend fun e he _ => by
    simp only [he, hcore, hlegal, if_true, flushRun_eq, Engine.emit_eq, Engine.emitAll_emitAll]

end EncRows

/-- A run control byte's class (R70, R73). -/
theorem ctrlClass_of_run : ∀ c : Byte, 0x02 ≤ c.toNat ∧ c.toNat ≤ 0x7F → ctrlClass c = .run c.toNat := by decide

/-- A literal control byte's class (R70, R73). -/
theorem ctrlClass_of_lit : ∀ c : Byte, 0x81 ≤ c.toNat → ctrlClass c = .lit (256 - c.toNat) := by decide

section DecRows
variable {s : State} (hpend : s.dec.pend = [])
include hpend

/-- D.CTRL.RUN (R141). -/
theorem exec_dCtrlRun {c : Byte} (hcore : s.dec.core = .ctrl) (hc : 0x02 ≤ c.toNat ∧ c.toNat ≤ 0x7F) :
    exec (.dCtrlRun c) s = .next (acceptedDec s (.byte c) (.runVal c.toNat) []) :=
  acceptDec_accepted hpend fun e he _ => by simp only [he, hcore, ctrlClass_of_run c hc, Engine.emitAll_nil]

/-- D.CTRL.LIT (R142). -/
theorem exec_dCtrlLit {c : Byte} (hcore : s.dec.core = .ctrl) (hc : 0x81 ≤ c.toNat) :
    exec (.dCtrlLit c) s = .next (acceptedDec s (.byte c) (.litPay (256 - c.toNat)) []) :=
  acceptDec_accepted hpend fun e he _ => by simp only [he, hcore, ctrlClass_of_lit c hc, Engine.emitAll_nil]

/-- The three invalid control bytes share one rule (R143). -/
theorem acceptDec_invalidControl (c : Byte) (hcore : s.dec.core = .ctrl) :
    acceptDec (.byte c) invalidControl s =
      .next (acceptedDec s (.byte c) .drain [.error .invalidControlByte]) :=
  acceptDec_accepted hpend fun e he _ => by
    simp only [invalidControl, he, hcore, raiseError, errorCore, Engine.emit_eq]

/-- D.RUNVAL.BYTE (R144). -/
theorem exec_dRunvalByte (v : Byte) {n : Nat} (hcore : s.dec.core = .runVal n) (hlegal : runLegal n = true) :
    exec (.dRunvalByte v) s = .next (acceptedDec s (.byte v) .ctrl (List.replicate n (.byte v))) :=
  acceptDec_accepted hpend fun e he _ => by simp only [he, hcore, hlegal, if_true]

/-- D.LITPAY.BYTE (R145). -/
theorem exec_dLitpayByte (b : Byte) {r : Nat} (hcore : s.dec.core = .litPay r) (hlegal : payLegal r = true) :
    exec (.dLitpayByte b) s =
      .next (acceptedDec s (.byte b) (if r = 1 then .ctrl else .litPay (r - 1)) [.byte b]) :=
  acceptDec_accepted hpend fun e he _ => by simp only [he, hcore, hlegal, if_true, Engine.emit_eq]

/-- D.DRAIN.BYTE (R146). -/
theorem exec_dDrainByte (b : Byte) (hcore : s.dec.core = .drain) :
    exec (.dDrainByte b) s = .next (acceptedDec s (.byte b) .drain []) :=
  acceptDec_accepted hpend fun e he _ => by
    simp only [he, hcore, Engine.emitAll_nil, Engine.goto_of_core_eq (he.trans hcore)]

/-- D.END.CTRL (R147). -/
theorem exec_dEndCtrl (hcore : s.dec.core = .ctrl) :
    exec .dEndCtrl s = .next (acceptedDec s .endTok .ctrl [.endTok]) :=
  acceptDec_accepted hpend fun e he _ => by
    simp only [he, hcore, Engine.emit_eq]
    rw [Engine.goto_of_core_eq ((Engine.emitAll_core _ e).trans (he.trans hcore))]

/-- D.END.RUNVAL (R148). -/
theorem exec_dEndRunval {n : Nat} (hcore : s.dec.core = .runVal n) (hlegal : runLegal n = true) :
    exec .dEndRunval s = .next (acceptedDec s .endTok .ctrl [.error .truncatedRecord]) :=
  acceptDec_accepted hpend fun e he _ => by
    simp only [he, hcore, hlegal, if_true, raiseError, errorCore, Engine.emit_eq]

/-- D.END.LITPAY (R149). -/
theorem exec_dEndLitpay {r : Nat} (hcore : s.dec.core = .litPay r) (hlegal : payLegal r = true) :
    exec .dEndLitpay s = .next (acceptedDec s .endTok .ctrl [.error .truncatedRecord]) :=
  acceptDec_accepted hpend fun e he _ => by
    simp only [he, hcore, hlegal, if_true, raiseError, errorCore, Engine.emit_eq]

/-- D.END.DRAIN (R150). -/
theorem exec_dEndDrain (hcore : s.dec.core = .drain) :
    exec .dEndDrain s = .next (acceptedDec s .endTok .ctrl []) :=
  acceptDec_accepted hpend fun e he _ => by simp only [he, hcore, leaveDrain, Engine.emitAll_nil]

end DecRows

/-- Whatever row ENC decodes leaves what R114 says. -/
theorem exec_of_decodeEnc_eq_table {s : State} {tw : TokenWord} {i : Instr} (hpend : s.enc.pend = [])
    (hdec : decodeEnc s.enc.core tw = .ok i) :
    exec i s = .next (acceptedEnc s (tokenOf tw) (encTable s.enc.core (tokenOf tw)).1
      (encTable s.enc.core (tokenOf tw)).2) := by
  cases htok : tokenOf tw <;> cases hcore : s.enc.core <;> simp only [decodeEnc, htok, hcore] at hdec
  case byte.idle b =>
    cases hdec
    exact exec_eIdleByte hpend b hcore
  case byte.lit b buf =>
    split_ifs at hdec with hfull hopen hlast <;> cases hdec
    · simpa [encTable, (litFull_iff buf).mp hfull] using exec_eLitCap hpend b hcore hfull
    · have hcap : buf.length ≠ 127 := mt (litFull_iff buf).mpr hfull
      simpa [encTable, hcap, (matchesLast_iff b buf).mp hlast] using exec_eLitMatch hpend b hcore hopen hlast
    · have hcap : buf.length ≠ 127 := mt (litFull_iff buf).mpr hfull
      have hother : buf.getLast? ≠ some b := mt (matchesLast_iff b buf).mpr hlast
      simpa [encTable, hcap, hother] using exec_eLitAppend hpend b hcore hopen (Bool.eq_false_of_not_eq_true hlast)
  case byte.run b v n =>
    split_ifs at hdec with hlegal heq hfull <;> cases hdec
    · subst heq
      simpa [encTable, (runFull_iff n).mp hfull] using exec_eRunCap hpend b hcore hfull
    · subst heq
      rw [runLegal_iff] at hlegal
      rw [runFull_iff] at hfull
      have hbelow : n < 127 := by omega
      simpa [encTable, hbelow] using exec_eRunExtend hpend b hcore ((runOpen_iff n).mpr ⟨hlegal.1, hbelow⟩)
    · simpa [encTable, heq] using exec_eRunBreak hpend hcore hlegal heq
  case endTok.idle =>
    cases hdec
    exact exec_eEndIdle hpend hcore
  case endTok.lit buf =>
    split_ifs at hdec with hlegal
    cases hdec
    exact exec_eEndLit hpend hcore hlegal
  case endTok.run v n =>
    split_ifs at hdec with hlegal
    cases hdec
    exact exec_eEndRun hpend hcore hlegal

/-- The row of a control byte by the ranges of R70. -/
theorem decodeControl_eq_ranges : ∀ c : Byte, decodeControl c =
    if 0x02 ≤ c.toNat ∧ c.toNat ≤ 0x7F then .dCtrlRun c
    else if 0x81 ≤ c.toNat then .dCtrlLit c
    else if c = 0x00#8 then .dCtrlInvalid00
    else if c = 0x01#8 then .dCtrlInvalid01
    else .dCtrlInvalid80 := by decide

/-- A byte in `Ctrl`, of whatever class (R141 to R143). -/
theorem exec_decodeControl {s : State} (hpend : s.dec.pend = []) (hcore : s.dec.core = .ctrl) (c : Byte) :
    exec (decodeControl c) s = .next (acceptedDec s (.byte c) (decTable .ctrl (.byte c)).1
      (decTable .ctrl (.byte c)).2) := by
  simp only [decTable, decodeControl_eq_ranges]
  split_ifs with hrun hlit h00 h01
  · exact exec_dCtrlRun hpend hcore hrun
  · exact exec_dCtrlLit hpend hcore hlit
  · exact h00 ▸ acceptDec_invalidControl hpend _ hcore
  · exact h01 ▸ acceptDec_invalidControl hpend _ hcore
  · have h80 : c = 0x80#8 := by bv_omega
    exact h80 ▸ acceptDec_invalidControl hpend _ hcore

/-- Whatever row DEC decodes leaves what R151 says. -/
theorem exec_of_decodeDec_eq_table {s : State} {tw : TokenWord} {i : Instr} (hpend : s.dec.pend = [])
    (hdec : decodeDec s.dec.core tw = .ok i) :
    exec i s = .next (acceptedDec s (tokenOf tw) (decTable s.dec.core (tokenOf tw)).1
      (decTable s.dec.core (tokenOf tw)).2) := by
  cases htok : tokenOf tw <;> cases hcore : s.dec.core <;> simp only [decodeDec, htok, hcore] at hdec
  case byte.ctrl c =>
    cases hdec
    exact exec_decodeControl hpend hcore c
  case byte.runVal v n =>
    split_ifs at hdec with hlegal
    cases hdec
    exact exec_dRunvalByte hpend v hcore hlegal
  case byte.litPay b r =>
    split_ifs at hdec with hlegal
    cases hdec
    exact exec_dLitpayByte hpend b hcore hlegal
  case byte.drain b =>
    cases hdec
    exact exec_dDrainByte hpend b hcore
  case endTok.ctrl =>
    cases hdec
    exact exec_dEndCtrl hpend hcore
  case endTok.runVal n =>
    split_ifs at hdec with hlegal
    cases hdec
    exact exec_dEndRunval hpend hcore hlegal
  case endTok.litPay r =>
    split_ifs at hdec with hlegal
    cases hdec
    exact exec_dEndLitpay hpend hcore hlegal
  case endTok.drain =>
    cases hdec
    exact exec_dEndDrain hpend hcore

end Sys2Proof.Machine
end

section
/-! SUPPORT. What the two transition tables keep: legal cores (R22, R25), and the length and form of what one token emits
(R27, R116, R152, R190). -/

namespace Sys2Proof

open Machine

/-! ### The form of pending output -/

@[simp] theorem all_isByte_map_byte (bs : List Byte) : (bs.map OutTok.byte).all isByte = true := by
  simp [isByte]

@[simp] theorem any_isError_map_byte (bs : List Byte) : (bs.map OutTok.byte).any isError = false := by
  simp [isError]

theorem all_isByte_dropLast {os : List OutTok} (h : os.all isByte = true) : os.dropLast.all isByte = true := by
  rw [List.all_eq_true] at h ⊢
  exact fun o ho => h o (List.mem_of_mem_dropLast ho)

/-- Taking the head leaves bytes before the last token. -/
theorem all_isByte_dropLast_of_cons {o : OutTok} {rest : List OutTok}
    (h : (o :: rest).dropLast.all isByte = true) : rest.dropLast.all isByte = true := by
  cases rest with
  | nil => rfl
  | cons o' rest' => exact (Bool.and_eq_true_iff.mp h).2

/-- A token that is no byte is the last one pending. -/
theorem eq_nil_of_head_not_byte {o : OutTok} {rest : List OutTok} (h : (o :: rest).dropLast.all isByte = true)
    (ho : isByte o = false) : rest = [] := by
  cases rest with
  | nil => rfl
  | cons o' rest' => exact absurd (Bool.and_eq_true_iff.mp h).1 (by simp [ho])

/-! ### ENC's table -/

/-- A literal record's tokens are the bytes of the record (R72). -/
theorem litTokens_eq_map (p : List Byte) : litTokens p = (Record.lit p).bytes.map .byte := rfl

/-- A run record's tokens are the bytes of the record (R71). -/
theorem runTokens_eq_map (n : Nat) (v : Byte) : runTokens n v = (Record.run n v).bytes.map .byte := rfl

theorem adjacentDistinct_iff_isChain (l : List Byte) : adjacentDistinct l = true ↔ l.IsChain (· ≠ ·) := by
  induction l with
  | nil => simp [adjacentDistinct]
  | cons a l ih =>
    cases l with
    | nil => simp [adjacentDistinct]
    | cons b l => simp [adjacentDistinct, ih]

/-- A byte other than the last one keeps neighbours distinct (R22, R107). -/
theorem adjacentDistinct_append {buf : List Byte} {b : Byte} (h : adjacentDistinct buf = true)
    (hlast : buf.getLast? ≠ some b) : adjacentDistinct (buf ++ [b]) = true := by
  rw [adjacentDistinct_iff_isChain] at h ⊢
  refine h.append (List.isChain_singleton b) ?_
  simp only [List.head?_cons, Option.mem_def, Option.some.injEq]
  rintro x hx _ rfl rfl
  exact hlast hx

/-- Every row of ENC leaves a legal core (R22). -/
theorem encTable_core_legal {k : EncCore} (t : InTok) (h : encCoreLegal k = true) :
    encCoreLegal (encTable k t).1 = true := by
  cases t with
  | endTok => cases k <;> rfl
  | byte b =>
    cases k with
    | idle => rfl
    | lit buf =>
      simp only [encCoreLegal, Bool.and_eq_true, decide_eq_true_eq] at h
      obtain ⟨⟨-, hmax⟩, hdistinct⟩ := h
      simp only [encTable]
      split_ifs with hcap hlast hempty
      · rfl
      · rfl
      · rfl
      · simp only [encCoreLegal, adjacentDistinct_append hdistinct hlast, List.length_append, List.length_singleton,
          Bool.and_true, decide_eq_true_eq]
        omega
    | run v n =>
      simp only [encCoreLegal, decide_eq_true_eq] at h
      simp only [encTable]
      split_ifs with heq hopen
      · simp only [encCoreLegal, decide_eq_true_eq]
        omega
      · rfl
      · rfl

/-- ENC is `Idle` after a token exactly when the token was `End` (R26, R183). -/
theorem encTable_core_idle_iff (k : EncCore) (t : InTok) : (encTable k t).1 = .idle ↔ t = .endTok := by
  cases t with
  | endTok => cases k <;> simp [encTable]
  | byte b =>
    cases k with
    | idle => simp [encTable]
    | lit buf => simp only [encTable]; split_ifs <;> simp
    | run v n => simp only [encTable]; split_ifs <;> simp

/-- A byte makes ENC emit at most one whole record (R116). -/
theorem encTable_byte_out (k : EncCore) (b : Byte) : ∃ bs : List Byte, (encTable k (.byte b)).2 = bs.map .byte ∧
    (encCoreLegal k = true → bs.length ≤ 128) := by
  cases k with
  | idle => exact ⟨[], rfl, by simp⟩
  | lit buf =>
    have hlen (h : encCoreLegal (.lit buf) = true) : buf.length ≤ 127 := by simp [encCoreLegal] at h; omega
    simp only [encTable]
    split_ifs with hcap hlast hempty
    · exact ⟨_, litTokens_eq_map buf, fun h => Nat.succ_le_succ (hlen h)⟩
    · exact ⟨[], rfl, by simp⟩
    · refine ⟨_, litTokens_eq_map buf.dropLast, fun h => Nat.succ_le_succ ?_⟩
      exact buf.length_dropLast.trans_le ((Nat.sub_le _ _).trans (hlen h))
    · exact ⟨[], rfl, by simp⟩
  | run v n =>
    simp only [encTable]
    split_ifs with heq hopen
    · exact ⟨[], rfl, by simp⟩
    · exact ⟨_, runTokens_eq_map 127 v, fun _ => by simp [Record.bytes]⟩
    · exact ⟨_, runTokens_eq_map n v, fun _ => by simp [Record.bytes]⟩

/-- `End` makes ENC emit what it holds as one record, then the terminator (R111 to R113, R116). -/
theorem encTable_end_out (k : EncCore) : ∃ bs : List Byte,
    (encTable k .endTok).2 = bs.map .byte ++ [.endTok] ∧ (encCoreLegal k = true → bs.length ≤ 128) := by
  cases k with
  | idle => exact ⟨[], rfl, by simp⟩
  | lit buf =>
    refine ⟨_, congrArg (· ++ [OutTok.endTok]) (litTokens_eq_map buf), fun h => Nat.succ_le_succ ?_⟩
    simp only [encCoreLegal, Bool.and_eq_true, decide_eq_true_eq] at h
    exact h.1.2
  | run v n => exact ⟨_, congrArg (· ++ [OutTok.endTok]) (runTokens_eq_map n v), fun _ => by simp [Record.bytes]⟩

/-! ### DEC's table -/

/-- Every row of DEC leaves a legal core (R25). -/
theorem decTable_core_legal {k : DecCore} (t : InTok) (h : decCoreLegal k = true) :
    decCoreLegal (decTable k t).1 = true := by
  cases t with
  | endTok => cases k <;> rfl
  | byte b =>
    cases k with
    | ctrl =>
      simp only [decTable]
      split_ifs with hrun hlit
      · simpa [decCoreLegal] using hrun
      · have hmax := b.isLt
        simp only [decCoreLegal, decide_eq_true_eq]
        omega
      · rfl
    | runVal n => rfl
    | litPay r =>
      simp only [decCoreLegal, decide_eq_true_eq] at h
      simp only [decTable]
      split_ifs with hone
      · rfl
      · simp only [decCoreLegal, decide_eq_true_eq]
        omega
    | drain => rfl

/-- `End` leaves DEC in `Ctrl` (R147 to R150). -/
theorem decTable_end_core (k : DecCore) : (decTable k .endTok).1 = .ctrl := by cases k <;> rfl

/-- One token makes DEC emit bytes, or a terminator alone, at `End` or on the way to `Drain` (R152). -/
theorem decTable_out (k : DecCore) (t : InTok) :
    ((∃ bs : List Byte, (decTable k t).2 = bs.map .byte) ∧ (decCoreLegal k = true → (decTable k t).2.length ≤ 127)) ∨
    ((∃ o, (decTable k t).2 = [o]) ∧ (t = .endTok ∨ (decTable k t).1 = .drain)) := by
  cases t with
  | endTok =>
    cases k with
    | drain => exact .inl ⟨⟨[], rfl⟩, fun _ => Nat.zero_le _⟩
    | ctrl | runVal | litPay => exact .inr ⟨⟨_, rfl⟩, .inl rfl⟩
  | byte b =>
    cases k with
    | ctrl =>
      simp only [decTable]
      split_ifs with hrun hlit
      · exact .inl ⟨⟨[], rfl⟩, fun _ => Nat.zero_le _⟩
      · exact .inl ⟨⟨[], rfl⟩, fun _ => Nat.zero_le _⟩
      · exact .inr ⟨⟨_, rfl⟩, .inr rfl⟩
    | runVal n =>
      refine .inl ⟨⟨List.replicate n b, List.map_replicate.symm⟩, fun h => ?_⟩
      simp only [decCoreLegal, decide_eq_true_eq] at h
      exact List.length_replicate.trans_le h.2
    | litPay r => exact .inl ⟨⟨[b], rfl⟩, fun _ => Nat.le_of_ble_eq_true rfl⟩
    | drain => exact .inl ⟨⟨[], rfl⟩, fun _ => Nat.zero_le _⟩

end Sys2Proof
end

section
/-! PROOFS. Every action of an engine keeps that engine's invariant, so every step keeps the machine's (10_state.md). -/

namespace Sys2Proof

open Machine

/-! ### Counters -/

theorem countUp_lt (w n : Nat) : countUp w n < 2 ^ w := Nat.mod_lt _ (Nat.two_pow_pos w)

/-- A counter that a new invocation clears stays in its width (R181). -/
theorem cleared_lt {w n : Nat} (active : Bool) (h : n < 2 ^ w) : (if active then n else 0) < 2 ^ w := by
  cases active
  · exact Nat.two_pow_pos w
  · exact h

theorem countOut_lt {w n : Nat} (o : OutTok) (h : n < 2 ^ w) : countOut w o n < 2 ^ w := by
  cases o with
  | byte b => exact countUp_lt w n
  | endTok => exact h
  | error k => exact h

theorem acceptedEnc_inCount_lt {s : State} (t : InTok) (k : EncCore) (out : List OutTok)
    (h : s.enc.inCount < 2 ^ s.cntW) : (acceptedEnc s t k out).enc.inCount < 2 ^ s.cntW := by
  cases t with
  | byte b => exact countUp_lt _ _
  | endTok => exact cleared_lt _ h

theorem acceptedDec_inCount_lt {s : State} (t : InTok) (k : DecCore) (out : List OutTok)
    (h : s.dec.inCount < 2 ^ s.cntW) : (acceptedDec s t k out).dec.inCount < 2 ^ s.cntW := by
  cases t with
  | byte b => exact countUp_lt _ _
  | endTok => exact cleared_lt _ h

/-! ### ENC -/

/-- What ENC's table emits has the length and form `pend` is allowed (R27, R116, R204). -/
theorem encTable_out_form {k : EncCore} (t : InTok) (h : encCoreLegal k = true) :
    (encTable k t).2.length ≤ 129 ∧ (encTable k t).2.dropLast.all isByte = true ∧
      (t ≠ .endTok → (encTable k t).2.all isByte = true) ∧ (encTable k t).2.any isError = false := by
  cases t with
  | byte b =>
    obtain ⟨bs, hout, hlen⟩ := encTable_byte_out k b
    rw [hout, List.length_map]
    exact ⟨(hlen h).trans (by decide), all_isByte_dropLast (all_isByte_map_byte bs), fun _ => all_isByte_map_byte bs,
      any_isError_map_byte bs⟩
  | endTok =>
    obtain ⟨bs, hout, hlen⟩ := encTable_end_out k
    rw [hout, List.dropLast_concat, List.any_append, any_isError_map_byte]
    refine ⟨?_, all_isByte_map_byte bs, fun hne => absurd rfl hne, rfl⟩
    rw [List.length_append, List.length_map]
    exact Nat.succ_le_succ (hlen h)

/-- `Accept` on ENC by R114 keeps its invariant. -/
theorem acceptedEnc_keeps_inv {s : State} (t : InTok) (hinv : EncInv s.cntW s.enc) :
    EncInv s.cntW (acceptedEnc s t (encTable s.enc.core t).1 (encTable s.enc.core t).2).enc := by
  obtain ⟨hcore, -, -, -, -, -, hin, hout, hresult⟩ := hinv
  obtain ⟨hlen, hform, hbytes, herror⟩ := encTable_out_form t hcore
  refine ⟨encTable_core_legal t hcore, ?active, hlen, hform, fun ha => hbytes (of_decide_eq_true ha), herror,
    acceptedEnc_inCount_lt t _ _ hin, cleared_lt _ hout, ?result⟩
  case active => simp [acceptedEnc, encTable_core_idle_iff]
  case result =>
    intro hok
    cases hactive : s.enc.active <;> simp [acceptedEnc, hactive] at hok
    exact absurd (hactive.symm.trans (hresult hok).2) (by decide)

/-- `Deliver` on ENC keeps its invariant; `End` is delivered as the last token, with the invocation over (R186). -/
theorem deliverEnc_keeps_inv {s t : State} (hinv : EncInv s.cntW s.enc) (h : deliverEnc s = .next t) :
    EncInv s.cntW t.enc := by
  obtain ⟨-, rfl⟩ | ⟨o, rest, r, hpend, hr, rfl⟩ := deliverEnc_cases h
  · exact hinv
  obtain ⟨hcore, hidle, hlen, hform, hbytes, herror, hin, hout, hresult⟩ := hinv
  rw [hpend] at hlen hform hbytes herror hresult
  refine ⟨hcore, hidle, (Nat.le_succ _).trans hlen, all_isByte_dropLast_of_cons hform,
    fun ha => (Bool.and_eq_true_iff.mp (hbytes ha)).2, (Bool.or_eq_false_iff.mp herror).2, hin, countOut_lt o hout,
    fun hok => ?_⟩
  cases o with
  | byte b =>
    have hsame : s.enc.result = r := Option.some.inj hr
    exact absurd (hresult (hsame.trans hok)).1 (List.cons_ne_nil _ _)
  | endTok =>
    refine ⟨eq_nil_of_head_not_byte hform rfl, Bool.eq_false_of_not_eq_true fun ha => ?_⟩
    exact absurd (Bool.and_eq_true_iff.mp (hbytes ha)).1 (by decide)
  | error k => cases hr

/-- Every edge at ENC keeps its invariant. -/
theorem encEdge_keeps_inv {p : Pins} {s t : State} (hinv : EncInv s.cntW s.enc) (h : encEdge p s = .next t) :
    EncInv s.cntW t.enc := by
  obtain ⟨-, rfl⟩ | ⟨-, -, hpend, i, hdec, hexec⟩ | ⟨-, -, -, hdeliver⟩ | ⟨-, rfl⟩ := encEdge_cases h
  · exact encInv_reset s.cntW
  · rw [exec_of_decodeEnc_eq_table hpend hdec] at hexec
    cases hexec
    exact acceptedEnc_keeps_inv _ hinv
  · exact deliverEnc_keeps_inv hinv hdeliver
  · exact hinv

/-! ### DEC -/

/-- What DEC's table emits has the length and form `pend` is allowed (R27, R152). -/
theorem decTable_out_form {k : DecCore} (t : InTok) (h : decCoreLegal k = true) :
    (decTable k t).2.length ≤ 127 ∧ (decTable k t).2.dropLast.all isByte = true ∧
      (t ≠ .endTok → (decTable k t).1 ≠ .drain → (decTable k t).2.all isByte = true) := by
  obtain ⟨⟨bs, hout⟩, hlen⟩ | ⟨⟨o, hout⟩, hlast⟩ := decTable_out k t
  · have hbytes : (decTable k t).2.all isByte = true := hout ▸ all_isByte_map_byte bs
    exact ⟨hlen h, all_isByte_dropLast hbytes, fun _ _ => hbytes⟩
  · rw [hout]
    exact ⟨by simp, rfl, fun ht hk => (hlast.elim ht hk).elim⟩

/-- `Accept` on DEC by R151 keeps its invariant; a result is kept only in `Drain`, which emits nothing (R146, R150). -/
theorem acceptedDec_keeps_inv {s : State} (t : InTok) (hinv : DecInv s.cntW s.dec) :
    DecInv s.cntW (acceptedDec s t (decTable s.dec.core t).1 (decTable s.dec.core t).2).dec := by
  obtain ⟨hcore, -, -, -, -, hin, hout, hresult⟩ := hinv
  obtain ⟨hlen, hform, hbytes⟩ := decTable_out_form t hcore
  refine ⟨decTable_core_legal t hcore, ?closed, hlen, hform, fun ha => hbytes (of_decide_eq_true ha),
    acceptedDec_inCount_lt t _ _ hin, cleared_lt _ hout, ?result⟩
  case closed =>
    intro ha
    have hend : t = .endTok := by simpa [acceptedDec] using ha
    exact hend ▸ decTable_end_core s.dec.core
  case result =>
    intro hset
    cases hactive : s.dec.active <;> simp [acceptedDec, hactive] at hset
    have hdrain : s.dec.core = .drain := (hresult hset).2 hactive
    rw [hdrain]
    cases t with
    | byte b => exact ⟨rfl, fun _ => rfl⟩
    | endTok => exact ⟨rfl, fun ha => absurd ha Bool.false_ne_true⟩

/-- Delivering a byte leaves DEC's result as it is (R186). -/
theorem decResultAfter_of_isByte {o : OutTok} (ho : isByte o = true) (r : DecResult) : decResultAfter o r = r := by
  cases o with
  | byte b => rfl
  | endTok | error => cases ho

/-- `Deliver` on DEC keeps its invariant; a terminator is delivered as the last token (R186). -/
theorem deliverDec_keeps_inv {s t : State} (hinv : DecInv s.cntW s.dec) (h : deliverDec s = .next t) :
    DecInv s.cntW t.dec := by
  obtain ⟨-, rfl⟩ | ⟨o, rest, hpend, rfl⟩ := deliverDec_cases h
  · exact hinv
  obtain ⟨hcore, hclosed, hlen, hform, hbytes, hin, hout, hresult⟩ := hinv
  rw [hpend] at hlen hform hbytes hresult
  refine ⟨hcore, hclosed, (Nat.le_succ _).trans hlen, all_isByte_dropLast_of_cons hform,
    fun ha hk => (Bool.and_eq_true_iff.mp (hbytes ha hk)).2, hin, countOut_lt o hout, fun hset => ?_⟩
  cases ho : isByte o with
  | true =>
    have hsame : decResultAfter o s.dec.result = s.dec.result := decResultAfter_of_isByte ho _
    exact absurd (hresult (hsame ▸ hset)).1 (List.cons_ne_nil _ _)
  | false =>
    refine ⟨eq_nil_of_head_not_byte hform ho, fun ha => by_contra fun hk => ?_⟩
    exact absurd (ho.symm.trans (Bool.and_eq_true_iff.mp (hbytes ha hk)).1) (by decide)

/-- Every edge at DEC keeps its invariant. -/
theorem decEdge_keeps_inv {p : Pins} {s t : State} (hinv : DecInv s.cntW s.dec) (h : decEdge p s = .next t) :
    DecInv s.cntW t.dec := by
  obtain ⟨-, rfl⟩ | ⟨-, -, hpend, i, hdec, hexec⟩ | ⟨-, -, -, hdeliver⟩ | ⟨-, rfl⟩ := decEdge_cases h
  · exact decInv_reset s.cntW
  · rw [exec_of_decodeDec_eq_table hpend hdec] at hexec
    cases hexec
    exact acceptedDec_keeps_inv _ hinv
  · exact deliverDec_keeps_inv hinv hdeliver
  · exact hinv

/-! ### The step -/

/-- ENC's part of an edge leaves the counter width and DEC's record as they are (R61). -/
theorem encEdge_frame {p : Pins} {s t : State} (h : encEdge p s = .next t) : t.cntW = s.cntW ∧ t.dec = s.dec := by
  have hput : t = s.setEnc t.enc t.encTrace := (encEdge_local p).frame h
  exact ⟨(congrArg State.cntW hput).trans rfl, (congrArg State.dec hput).trans rfl⟩

/-- DEC's part of an edge leaves the counter width and ENC's record as they are (R61). -/
theorem decEdge_frame {p : Pins} {s t : State} (h : decEdge p s = .next t) : t.cntW = s.cntW ∧ t.enc = s.enc := by
  have hput : t = s.setDec t.dec t.decTrace := (decEdge_local p).frame h
  exact ⟨(congrArg State.cntW hput).trans rfl, (congrArg State.enc hput).trans rfl⟩

/-- Settles O46: each engine's part of the edge keeps that engine's invariant and leaves the other engine as it is. -/
theorem stepKeepsInv : Obligations.StepKeepsInv := by
  rintro s t ⟨hwidth, henc, hdec⟩ h
  obtain ⟨m, hencEdge, hdecEdge⟩ := bothEdges_cases h
  obtain ⟨hmw, hmd⟩ := encEdge_frame hencEdge
  obtain ⟨htw, hte⟩ := decEdge_frame hdecEdge
  have hencInv : EncInv s.cntW m.enc := encEdge_keeps_inv (s := s.advance) henc hencEdge
  have hdecInv : DecInv m.cntW t.dec := decEdge_keeps_inv (by rw [hmw, hmd]; exact hdec) hdecEdge
  rw [State.advance_cntW] at hmw
  refine ⟨?_, ?_, ?_⟩
  · rwa [htw, hmw]
  · rwa [htw, hmw, hte]
  · rwa [htw]

end Sys2Proof
end

section
/-! SUPPORT. A row's rule writes `core` and `pend` only (R11), so what an `Accept` does to the counters and the result is
its framing (R181 to R183). -/

namespace Sys2Proof.Machine

section Framing
variable {κ ρ : Type}

/-- The rule leaves the fields of the framing as they are: it writes at most `core` and `pend` (R11). -/
def KeepsFraming (rule : Engine κ ρ → Option (Engine κ ρ)) : Prop :=
  ∀ ⦃e e' : Engine κ ρ⦄, rule e = some e' →
    e'.inCount = e.inCount ∧ e'.outCount = e.outCount ∧ e'.result = e.result

/-- Inside an invocation nothing is cleared before the rule (R181). -/
theorem Engine.begin_of_active {e : Engine κ ρ} (r : ρ) (h : e.active = true) : e.begin r = e := by
  simp [Engine.begin, h]

/-- Inside an invocation an `Accept` leaves the output counter and the result, and for `End` the input counter, as they
are (R181 to R183). -/
theorem KeepsFraming.in_invocation {rule : Engine κ ρ → Option (Engine κ ρ)} (hkeeps : KeepsFraming rule)
    {e e' : Engine κ ρ} {r : ρ} {w : Nat} {t : InTok} (hactive : e.active = true)
    (hrule : rule ((e.begin r).countIn w t) = some e') :
    ((e'.finish t).outCount = e.outCount ∧ (e'.finish t).result = e.result) ∧
      (t = .endTok → (e'.finish t).inCount = e.inCount) := by
  rw [Engine.begin_of_active r hactive] at hrule
  obtain ⟨hin, hout, hresult⟩ := hkeeps hrule
  refine ⟨⟨by simpa using hout, by simpa using hresult⟩, ?_⟩
  rintro rfl
  exact hin

end Framing

/-- A row of ENC is an `Accept` of the token its word carries, by a rule that keeps the framing's fields (R100): each
branch of a rule refuses, or answers the record after flushes, emits and a write of `core`. -/
theorem exec_encRow {i : Instr} (hrow : i.row.engine = .enc) :
    ∃ rule, KeepsFraming rule ∧ exec i = acceptEnc (tokenOf (encode i)) rule := by
  cases i with
  | eIdleByte b | eLitCap b | eLitMatch b | eLitAppend b | eRunExtend b | eRunCap b | eRunBreak b =>
    refine ⟨_, fun e e' h => ?_, (congrArg (acceptEnc · _) (tokenOf_byteWord b)).symm⟩
    repeat' split at h
    all_goals cases h <;> exact ⟨rfl, rfl, rfl⟩
  | eEndIdle | eEndLit | eEndRun =>
    refine ⟨_, fun e e' h => ?_, (congrArg (acceptEnc · _) tokenOf_endWord).symm⟩
    repeat' split at h
    all_goals cases h <;> exact ⟨rfl, rfl, rfl⟩
  | dCtrlRun | dCtrlLit | dCtrlInvalid00 | dCtrlInvalid01 | dCtrlInvalid80 | dRunvalByte | dLitpayByte | dDrainByte
  | dEndCtrl | dEndRunval | dEndLitpay | dEndDrain => cases hrow

/-- R143's rule keeps the framing's fields. -/
theorem invalidControl_keepsFraming : KeepsFraming invalidControl := by
  intro e e' h
  unfold invalidControl at h
  split at h <;> cases h
  exact ⟨rfl, rfl, rfl⟩

/-- A row of DEC is an `Accept` of the token its word carries, by a rule that keeps the framing's fields (R140): each
branch of a rule refuses, or answers the record after emits and a write of `core`. -/
theorem exec_decRow {i : Instr} (hrow : i.row.engine = .dec) :
    ∃ rule, KeepsFraming rule ∧ exec i = acceptDec (tokenOf (encode i)) rule := by
  cases i with
  | dCtrlRun b | dCtrlLit b | dRunvalByte b | dLitpayByte b | dDrainByte b =>
    refine ⟨_, fun e e' h => ?_, (congrArg (acceptDec · _) (tokenOf_byteWord b)).symm⟩
    repeat' split at h
    all_goals cases h <;> exact ⟨rfl, rfl, rfl⟩
  | dCtrlInvalid00 | dCtrlInvalid01 | dCtrlInvalid80 => exact ⟨_, invalidControl_keepsFraming, rfl⟩
  | dEndCtrl | dEndRunval | dEndLitpay | dEndDrain =>
    refine ⟨_, fun e e' h => ?_, (congrArg (acceptDec · _) tokenOf_endWord).symm⟩
    repeat' split at h
    all_goals cases h <;> exact ⟨rfl, rfl, rfl⟩
  | eIdleByte | eLitCap | eLitMatch | eLitAppend | eRunExtend | eRunCap | eRunBreak | eEndIdle | eEndLit | eEndRun =>
    cases hrow

end Sys2Proof.Machine
end

section
/-! PROOFS. The statements of 20_memory.md: what the rows leave unchanged (R58), and that the streams only grow (R51, R52,
R57). -/

namespace Sys2Proof

open Machine

/-- Settles O31: a row of ENC waits, or writes ENC's record and accepted stream with a rule that keeps the framing. -/
theorem encRowsFrame : Obligations.EncRowsFrame := by
  intro i s t hrow h
  obtain ⟨rule, hkeeps, hexec⟩ := exec_encRow hrow
  rw [hexec] at h
  obtain ⟨-, rfl⟩ | ⟨hpend, e, hrule, rfl⟩ := acceptEnc_cases h
  · exact ⟨rfl, rfl, rfl, rfl, rfl, rfl, fun _ => ⟨rfl, rfl⟩, fun _ _ => rfl, fun _ => rfl⟩
  · exact ⟨rfl, rfl, rfl, rfl, rfl, rfl, fun hactive => (hkeeps.in_invocation hactive hrule).1,
      fun hactive => (hkeeps.in_invocation hactive hrule).2, fun hne => absurd hpend hne⟩

/-- Settles O32: a row of DEC waits, or writes DEC's record and accepted stream with a rule that keeps the framing. -/
theorem decRowsFrame : Obligations.DecRowsFrame := by
  intro i s t hrow h
  obtain ⟨rule, hkeeps, hexec⟩ := exec_decRow hrow
  rw [hexec] at h
  obtain ⟨-, rfl⟩ | ⟨hpend, e, hrule, rfl⟩ := acceptDec_cases h
  · exact ⟨rfl, rfl, rfl, rfl, rfl, rfl, fun _ => ⟨rfl, rfl⟩, fun _ _ => rfl, fun _ => rfl⟩
  · exact ⟨rfl, rfl, rfl, rfl, rfl, rfl, fun hactive => (hkeeps.in_invocation hactive hrule).1,
      fun hactive => (hkeeps.in_invocation hactive hrule).2, fun hne => absurd hpend hne⟩

/-! ### The streams -/

/-- `tr'` is `tr` with at most one token more, accepted or delivered (R51, R52). -/
def GrowsByAtMostOne (tr tr' : Trace) : Prop :=
  ∃ (xs : List InTok) (ys : List OutTok), tr'.accepted = tr.accepted ++ xs ∧ tr'.delivered = tr.delivered ++ ys ∧
    xs.length + ys.length ≤ 1

theorem GrowsByAtMostOne.refl (tr : Trace) : GrowsByAtMostOne tr tr :=
  ⟨[], [], (List.append_nil _).symm, (List.append_nil _).symm, Nat.zero_le 1⟩

theorem growsByAtMostOne_accept (t : InTok) (tr : Trace) : GrowsByAtMostOne tr (tr.accept t) :=
  ⟨[t], [], rfl, (List.append_nil _).symm, Nat.le_refl 1⟩

theorem growsByAtMostOne_deliver (o : OutTok) (tr : Trace) : GrowsByAtMostOne tr (tr.deliver o) :=
  ⟨[], [o], (List.append_nil _).symm, rfl, Nat.le_refl 1⟩

/-- Without `rst` an edge at ENC appends at most one token to ENC's streams (R187). -/
theorem encEdge_grows {p : Pins} {s t : State} (h : encEdge p s = .next t) (hrst : p.rst = false) :
    GrowsByAtMostOne s.encTrace t.encTrace := by
  obtain ⟨hreset, -⟩ | ⟨-, -, -, i, hdec, hexec⟩ | ⟨-, -, -, hdeliver⟩ | ⟨-, rfl⟩ := encEdge_cases h
  · exact absurd (hrst.symm.trans hreset) Bool.false_ne_true
  · obtain ⟨tok, rule, hacc⟩ := exec_of_decodeEnc hdec
    rw [hacc] at hexec
    obtain ⟨-, rfl⟩ | ⟨-, e, -, rfl⟩ := acceptEnc_cases hexec
    · exact .refl _
    · exact growsByAtMostOne_accept tok _
  · obtain ⟨-, rfl⟩ | ⟨o, rest, r, -, -, rfl⟩ := deliverEnc_cases hdeliver
    · exact .refl _
    · exact growsByAtMostOne_deliver o _
  · exact .refl _

/-- Without `rst` an edge at DEC appends at most one token to DEC's streams (R187). -/
theorem decEdge_grows {p : Pins} {s t : State} (h : decEdge p s = .next t) (hrst : p.rst = false) :
    GrowsByAtMostOne s.decTrace t.decTrace := by
  obtain ⟨hreset, -⟩ | ⟨-, -, -, i, hdec, hexec⟩ | ⟨-, -, -, hdeliver⟩ | ⟨-, rfl⟩ := decEdge_cases h
  · exact absurd (hrst.symm.trans hreset) Bool.false_ne_true
  · obtain ⟨tok, rule, hacc⟩ := exec_of_decodeDec hdec
    rw [hacc] at hexec
    obtain ⟨-, rfl⟩ | ⟨-, e, -, rfl⟩ := acceptDec_cases hexec
    · exact .refl _
    · exact growsByAtMostOne_accept tok _
  · obtain ⟨-, rfl⟩ | ⟨o, rest, -, rfl⟩ := deliverDec_cases hdeliver
    · exact .refl _
    · exact growsByAtMostOne_deliver o _
  · exact .refl _

/-- A step writes the engines' records and streams; beside them it takes one edge off the schedule and counts it. -/
theorem step_frame {s t : State} (h : step s = .next t) :
    t = (s.advance.setEnc t.enc t.encTrace).setDec t.dec t.decTrace := by
  obtain ⟨m, henc, hdec⟩ := bothEdges_cases h
  have hm : m = s.advance.setEnc m.enc m.encTrace := (encEdge_local _).frame henc
  have ht : t = m.setDec t.dec t.decTrace := (decEdge_local _).frame hdec
  rw [hm] at ht
  rw [ht]
  rfl

/-- Settles O44: each engine's streams after a step are those its own part of the edge leaves. -/
theorem streamsAppendOnly : Obligations.StreamsAppendOnly := by
  intro s t h
  refine ⟨fun hrst => ?enc, fun hrst => ?dec, ?cntW, ?edges⟩
  case enc =>
    obtain ⟨m, hedge, hview⟩ := step_encView h
    obtain ⟨-, -, htrace, -⟩ := encView_eq_iff.mp hview
    rw [htrace]
    exact encEdge_grows (s := s.advance) hedge hrst
  case dec =>
    obtain ⟨m, hedge, hview⟩ := step_decView h
    obtain ⟨-, -, htrace, -⟩ := decView_eq_iff.mp hview
    rw [htrace]
    exact decEdge_grows (s := s.advance) hedge hrst
  case cntW => exact (congrArg State.cntW (step_frame h)).trans rfl
  case edges => exact (congrArg State.edges (step_frame h)).trans rfl

end Sys2Proof
end

section
/-! SUPPORT. How token words read (R83): a word is its kind bit and its data byte, both decoders read its token only,
and a word with the token of a well-formed instruction matches that instruction's row (R87). -/

namespace Sys2Proof.Machine

/-- A token word is its kind bit and its data byte (R83). -/
theorem kind_append_data (tw : TokenWord) : tw.extractLsb' 8 1 ++ tw.extractLsb' 0 8 = tw := by
  rw [BitVec.extractLsb'_append_extractLsb'_eq_extractLsb' (by decide)]
  exact BitVec.extractLsb'_eq_self

/-- The pins of an offer carry the word offered. -/
theorem tokenWord_offer (tw : TokenWord) : (Pins.offer tw).tokenWord = tw := kind_append_data tw

theorem tokenOf_eq_endTok_iff {tw : TokenWord} : tokenOf tw = .endTok ↔ tw.getLsbD 8 = true := by
  unfold tokenOf
  split <;> simp_all

/-- A byte has one word (R83). -/
theorem tokenOf_eq_byte_iff {tw : TokenWord} {b : Byte} : tokenOf tw = .byte b ↔ tw = byteWord b := by
  refine ⟨fun h => ?_, fun h => h ▸ tokenOf_byteWord b⟩
  unfold tokenOf at h
  split at h
  next => cases h
  next hkind =>
    cases h
    have hzero : tw.extractLsb' 8 1 = 0#1 := by
      ext i hi
      simpa [show i = 0 by omega] using hkind
    rw [byteWord, ← hzero, kind_append_data]

/-- ENC's decoder reads the token only (R83, R87). -/
theorem decodeEnc_eq_of_token {tw tw' : TokenWord} (h : tokenOf tw = tokenOf tw') (k : EncCore) :
    decodeEnc k tw = decodeEnc k tw' := by
  simp only [decodeEnc, h]

/-- DEC's decoder reads the token only (R83, R87). -/
theorem decodeDec_eq_of_token {tw tw' : TokenWord} (h : tokenOf tw = tokenOf tw') (k : DecCore) :
    decodeDec k tw = decodeDec k tw' := by
  simp only [decodeDec, h]

/-- Every well-formed instruction's word matches its row (R87). -/
theorem matchesWord_encode (i : Instr) : Laws.TableRow.Statement i :=
  match i with
  | .eIdleByte b => Laws.TableRow.eIdleByte b
  | .eLitCap b => Laws.TableRow.eLitCap b
  | .eLitMatch b => Laws.TableRow.eLitMatch b
  | .eLitAppend b => Laws.TableRow.eLitAppend b
  | .eRunExtend b => Laws.TableRow.eRunExtend b
  | .eRunCap b => Laws.TableRow.eRunCap b
  | .eRunBreak b => Laws.TableRow.eRunBreak b
  | .eEndIdle => Laws.TableRow.eEndIdle
  | .eEndLit => Laws.TableRow.eEndLit
  | .eEndRun => Laws.TableRow.eEndRun
  | .dCtrlRun c => Laws.TableRow.dCtrlRun c
  | .dCtrlLit c => Laws.TableRow.dCtrlLit c
  | .dCtrlInvalid00 => Laws.TableRow.dCtrlInvalid00
  | .dCtrlInvalid01 => Laws.TableRow.dCtrlInvalid01
  | .dCtrlInvalid80 => Laws.TableRow.dCtrlInvalid80
  | .dRunvalByte v => Laws.TableRow.dRunvalByte v
  | .dLitpayByte b => Laws.TableRow.dLitpayByte b
  | .dDrainByte b => Laws.TableRow.dDrainByte b
  | .dEndCtrl => Laws.TableRow.dEndCtrl
  | .dEndRunval => Laws.TableRow.dEndRunval
  | .dEndLitpay => Laws.TableRow.dEndLitpay
  | .dEndDrain => Laws.TableRow.dEndDrain

/-- The rows of `End` all have `match` and `mask` 0x100 and no `excludes`. -/
theorem row_of_endTok {i : Instr} (h : tokenOf (encode i) = .endTok) :
    i.row = ⟨i.row.engine, 0x100#9, 0x100#9, []⟩ := by
  cases i with
  | eEndIdle | eEndLit | eEndRun | dEndCtrl | dEndRunval | dEndLitpay | dEndDrain => rfl
  | dCtrlInvalid00 | dCtrlInvalid01 | dCtrlInvalid80 => exact absurd h (by decide)
  | eIdleByte b | eLitCap b | eLitMatch b | eLitAppend b | eRunExtend b | eRunCap b | eRunBreak b | dCtrlRun b
  | dCtrlLit b | dRunvalByte b | dLitpayByte b | dDrainByte b => cases (tokenOf_byteWord b).symm.trans h

/-- A word with the token of a well-formed instruction matches that instruction's row (R87): a byte has one word, and
the `End` rows read `in_kind` alone. -/
theorem matchesWord_of_token {i : Instr} {tw : TokenWord} (hwf : i.wellFormed = true)
    (htok : tokenOf (encode i) = tokenOf tw) : i.row.matchesWord tw = true := by
  cases hread : tokenOf tw with
  | byte b =>
    rw [tokenOf_eq_byte_iff.mp hread, ← tokenOf_eq_byte_iff.mp (htok.trans hread)]
    exact matchesWord_encode i hwf
  | endTok =>
    have hkind : tw &&& 0x100#9 = 0x100#9 := by
      rw [show 0x100#9 = BitVec.twoPow 9 8 by decide, BitVec.and_twoPow, if_pos (tokenOf_eq_endTok_iff.mp hread)]
    rw [row_of_endTok (htok.trans hread)]
    simp [TableRow.matchesWord, hkind]

end Sys2Proof.Machine
end

section
/-! SUPPORT. What a decoder answers, in full: the well-formed row of its engine that applies in the state and carries
the word's token (R87, R114, R151). -/

namespace Sys2Proof

open Machine

/-! ### ENC -/

/-- A row that ENC's decoder answers is well-formed, applies, and carries the word's token (R114). -/
theorem decodeEnc_sound {s : State} {tw : TokenWord} {i : Instr} (h : decodeEnc s.enc.core tw = .ok i) :
    i.wellFormed = true ∧ i.appliesIn s = true ∧ tokenOf (encode i) = tokenOf tw := by
  cases htok : tokenOf tw <;> cases hcore : s.enc.core <;> simp only [decodeEnc, htok, hcore] at h
  case byte.idle b =>
    cases h
    exact ⟨rfl, by simp [Instr.appliesIn, hcore], tokenOf_byteWord b⟩
  case byte.lit b buf =>
    split_ifs at h with hfull hopen hlast <;> cases h <;> refine ⟨rfl, ?_, tokenOf_byteWord b⟩
    · simpa [Instr.appliesIn, hcore] using hfull
    · simpa [Instr.appliesIn, hcore, and_assoc] using And.intro hopen hlast
    · simpa [Instr.appliesIn, hcore, and_assoc] using And.intro hopen hlast
  case byte.run b v n =>
    split_ifs at h with hlegal heq hfull <;> cases h <;> refine ⟨rfl, ?_, tokenOf_byteWord b⟩
    · simpa [Instr.appliesIn, hcore] using And.intro heq hfull
    · rw [runLegal_iff] at hlegal
      rw [runFull_iff] at hfull
      simp only [Instr.appliesIn, hcore, decide_eq_true_iff]
      exact ⟨heq, hlegal.1, by omega⟩
    · simpa [Instr.appliesIn, hcore] using And.intro heq hlegal
  case endTok.idle =>
    cases h
    exact ⟨rfl, by simp [Instr.appliesIn, hcore], tokenOf_endWord⟩
  case endTok.lit buf =>
    split_ifs at h with hlegal
    cases h
    exact ⟨rfl, by simpa [Instr.appliesIn, hcore] using hlegal, tokenOf_endWord⟩
  case endTok.run v n =>
    split_ifs at h with hlegal
    cases h
    exact ⟨rfl, by simpa [Instr.appliesIn, hcore] using hlegal, tokenOf_endWord⟩

/-- A row of ENC that applies is what ENC's decoder answers for its word (R114). -/
theorem decodeEnc_encode {s : State} {i : Instr} (hrow : i.row.engine = .enc) (happ : i.appliesIn s = true) :
    decodeEnc s.enc.core (encode i) = .ok i := by
  cases i with
  | eIdleByte b =>
    simp only [Instr.appliesIn, decide_eq_true_iff] at happ
    simp only [decodeEnc, encode, tokenOf_byteWord, happ]
  | eLitCap b =>
    cases hcore : s.enc.core <;> simp only [Instr.appliesIn, hcore, Bool.false_eq_true, decide_eq_true_iff] at happ
    simp [decodeEnc, encode, tokenOf_byteWord, happ]
  | eLitMatch b | eLitAppend b =>
    cases hcore : s.enc.core <;> simp only [Instr.appliesIn, hcore, Bool.false_eq_true, decide_eq_true_iff] at happ
    obtain ⟨hpos, hbelow, hlast⟩ := happ
    simp [decodeEnc, encode, tokenOf_byteWord, (litOpen_iff _).mpr ⟨hpos, hbelow⟩, hbelow.ne, hlast]
  | eRunExtend b =>
    cases hcore : s.enc.core <;> simp only [Instr.appliesIn, hcore, Bool.false_eq_true, decide_eq_true_iff] at happ
    obtain ⟨rfl, hlow, hbelow⟩ := happ
    simp [decodeEnc, encode, tokenOf_byteWord, (runLegal_iff _).mpr ⟨hlow, hbelow.le⟩, hbelow.ne]
  | eRunCap b | eRunBreak b =>
    cases hcore : s.enc.core <;> simp only [Instr.appliesIn, hcore, Bool.false_eq_true, decide_eq_true_iff] at happ
    simp [decodeEnc, encode, tokenOf_byteWord, happ]
  | eEndIdle =>
    simp only [Instr.appliesIn, decide_eq_true_iff] at happ
    simp only [decodeEnc, encode, tokenOf_endWord, happ]
  | eEndLit | eEndRun =>
    cases hcore : s.enc.core <;> simp only [Instr.appliesIn, hcore, Bool.false_eq_true, decide_eq_true_iff] at happ
    simp [decodeEnc, encode, tokenOf_endWord, happ]
  | dCtrlRun | dCtrlLit | dCtrlInvalid00 | dCtrlInvalid01 | dCtrlInvalid80 | dRunvalByte | dLitpayByte | dDrainByte
  | dEndCtrl | dEndRunval | dEndLitpay | dEndDrain => cases hrow

/-! ### DEC -/

/-- Each of the five outcomes of a control byte admits the byte and carries it (R141 to R143). -/
theorem decodeControl_sound (c : Byte) :
    (decodeControl c).wellFormed = true ∧ tokenOf (encode (decodeControl c)) = .byte c := by
  rw [decodeControl_eq_ranges]
  split_ifs with hrun hlit h00 h01
  · exact ⟨decide_eq_true hrun, tokenOf_byteWord c⟩
  · exact ⟨decide_eq_true ⟨hlit, Nat.le_of_lt_succ c.isLt⟩, tokenOf_byteWord c⟩
  · exact h00 ▸ ⟨rfl, rfl⟩
  · exact h01 ▸ ⟨rfl, rfl⟩
  · have h80 : c = 0x80#8 := by bv_omega
    exact h80 ▸ ⟨rfl, rfl⟩

/-- The row of a control byte applies in `Ctrl` (R141 to R143). -/
theorem decodeControl_appliesIn {s : State} (hcore : s.dec.core = .ctrl) (c : Byte) :
    (decodeControl c).appliesIn s = true := by
  unfold decodeControl
  split_ifs <;> exact decide_eq_true hcore

/-- A row that DEC's decoder answers is well-formed, applies, and carries the word's token (R151). -/
theorem decodeDec_sound {s : State} {tw : TokenWord} {i : Instr} (h : decodeDec s.dec.core tw = .ok i) :
    i.wellFormed = true ∧ i.appliesIn s = true ∧ tokenOf (encode i) = tokenOf tw := by
  cases htok : tokenOf tw <;> cases hcore : s.dec.core <;> simp only [decodeDec, htok, hcore] at h
  case byte.ctrl c =>
    cases h
    obtain ⟨hwf, hread⟩ := decodeControl_sound c
    exact ⟨hwf, decodeControl_appliesIn hcore c, hread⟩
  case byte.drain b =>
    cases h
    exact ⟨rfl, decide_eq_true hcore, tokenOf_byteWord b⟩
  case byte.runVal b n | byte.litPay b r =>
    split_ifs at h with hlegal
    cases h
    exact ⟨rfl, by simpa [Instr.appliesIn, hcore] using hlegal, tokenOf_byteWord b⟩
  case endTok.ctrl | endTok.drain =>
    cases h
    exact ⟨rfl, decide_eq_true hcore, tokenOf_endWord⟩
  case endTok.runVal n | endTok.litPay r =>
    split_ifs at h with hlegal
    cases h
    exact ⟨rfl, by simpa [Instr.appliesIn, hcore] using hlegal, tokenOf_endWord⟩

/-- A row of DEC that admits its operand and applies is what DEC's decoder answers for its word (R151). -/
theorem decodeDec_encode {s : State} {i : Instr} (hrow : i.row.engine = .dec) (hwf : i.wellFormed = true)
    (happ : i.appliesIn s = true) : decodeDec s.dec.core (encode i) = .ok i := by
  cases i with
  | dCtrlRun c =>
    simp only [Instr.appliesIn, decide_eq_true_iff] at happ
    have hrange : 0x02 ≤ c.toNat ∧ c.toNat ≤ 0x7F := of_decide_eq_true hwf
    simp only [decodeDec, encode, tokenOf_byteWord, happ, decodeControl_eq_ranges, if_pos hrange]
  | dCtrlLit c =>
    simp only [Instr.appliesIn, decide_eq_true_iff] at happ
    have hrange : 0x81 ≤ c.toNat ∧ c.toNat ≤ 0xFF := of_decide_eq_true hwf
    have hnotRun : ¬ (0x02 ≤ c.toNat ∧ c.toNat ≤ 0x7F) := by omega
    simp only [decodeDec, encode, tokenOf_byteWord, happ, decodeControl_eq_ranges, if_neg hnotRun, if_pos hrange.1]
  | dCtrlInvalid00 | dCtrlInvalid01 | dCtrlInvalid80 =>
    simp only [Instr.appliesIn, decide_eq_true_iff] at happ
    rw [happ]
    rfl
  | dDrainByte b =>
    simp only [Instr.appliesIn, decide_eq_true_iff] at happ
    simp only [decodeDec, encode, tokenOf_byteWord, happ]
  | dRunvalByte b | dLitpayByte b =>
    cases hcore : s.dec.core <;> simp only [Instr.appliesIn, hcore, Bool.false_eq_true, decide_eq_true_iff] at happ
    simp [decodeDec, encode, tokenOf_byteWord, happ]
  | dEndCtrl | dEndDrain =>
    simp only [Instr.appliesIn, decide_eq_true_iff] at happ
    simp only [decodeDec, encode, tokenOf_endWord, happ]
  | dEndRunval | dEndLitpay =>
    cases hcore : s.dec.core <;> simp only [Instr.appliesIn, hcore, Bool.false_eq_true, decide_eq_true_iff] at happ
    simp [decodeDec, encode, tokenOf_endWord, happ]
  | eIdleByte | eLitCap | eLitMatch | eLitAppend | eRunExtend | eRunCap | eRunBreak | eEndIdle | eEndLit | eEndRun =>
    cases hrow

/-! ### Either engine -/

/-- An engine's decoder answers exactly the well-formed row of that engine that applies in the state and carries the
word's token. -/
theorem decodeAt_eq_ok_iff {id : EngineId} {s : State} {tw : TokenWord} {i : Instr} :
    decodeAt id s tw = .ok i ↔ i.row.engine = id ∧ i.wellFormed = true ∧ i.appliesIn s = true ∧
      tokenOf (encode i) = tokenOf tw := by
  cases id with
  | enc =>
    refine ⟨fun h => ⟨decodeEnc_engine h, decodeEnc_sound h⟩, fun ⟨hrow, _, happ, htok⟩ => ?_⟩
    exact (decodeEnc_eq_of_token htok _).symm.trans (decodeEnc_encode hrow happ)
  | dec =>
    refine ⟨fun h => ⟨decodeDec_engine h, decodeDec_sound h⟩, fun ⟨hrow, hwf, happ, htok⟩ => ?_⟩
    exact (decodeDec_eq_of_token htok _).symm.trans (decodeDec_encode hrow hwf happ)

end Sys2Proof
end

section
/-! SUPPORT. The fields that the control byte, the output pins and the status words are made of (R70, R73, R85, R86). -/

namespace Sys2Proof.Machine

/-! ### Control bytes -/

/-- The two's-complement reading is the library's `BitVec.toInt` (R10). -/
theorem s8_eq_toInt (v : Byte) : s8 v = v.toInt := by
  rw [BitVec.toInt_eq_msb_cond, BitVec.msb_eq_getLsbD_last]
  rfl

/-- A byte below 0x80 reads as itself (R10). -/
theorem s8_of_lt {v : Byte} (h : v.toNat < 0x80) : s8 v = v.toNat := by
  rw [s8_eq_toInt, BitVec.toInt_eq_toNat_of_lt (by omega)]

/-- A byte from 0x80 reads as itself less 256 (R10). -/
theorem s8_of_ge {v : Byte} (h : 0x80 ≤ v.toNat) : s8 v = (v.toNat : Int) - 256 := by
  rw [s8_eq_toInt, BitVec.toInt_eq_toNat_cond, if_neg (by omega)]
  rfl

/-- The three invalid control bytes (R70). -/
theorem ctrlClass_of_invalid : ∀ c : Byte,
    c.toNat = 0x00 ∨ c.toNat = 0x01 ∨ c.toNat = 0x80 → ctrlClass c = .invalid := by decide

/-- The class of a control byte by the ranges of R70. -/
theorem ctrlClass_eq_ranges (c : Byte) : ctrlClass c =
    if c.toNat = 0x00 ∨ c.toNat = 0x01 ∨ c.toNat = 0x80 then .invalid
    else if 0x02 ≤ c.toNat ∧ c.toNat ≤ 0x7F then .run c.toNat
    else .lit (256 - c.toNat) := by
  split_ifs with hinvalid hrun
  · exact ctrlClass_of_invalid c hinvalid
  · exact ctrlClass_of_run c hrun
  · exact ctrlClass_of_lit c (by omega)

theorem ctrlClass_eq_run_iff {c : Byte} {n : Nat} :
    ctrlClass c = .run n ↔ c.toNat = n ∧ 2 ≤ n ∧ n ≤ 127 := by
  rw [ctrlClass_eq_ranges]
  split_ifs <;> simp <;> omega

theorem ctrlClass_eq_lit_iff {c : Byte} {len : Nat} :
    ctrlClass c = .lit len ↔ c.toNat = 256 - len ∧ 1 ≤ len ∧ len ≤ 127 := by
  rw [ctrlClass_eq_ranges]
  split_ifs <;> simp <;> omega

/-! ### Output tokens -/

/-- No token has kind `11` (R85). -/
theorem outKindOf_ne_three (t : OutTok) : outKindOf t ≠ 0b11#2 := by cases t <;> simp [outKindOf]

/-- Kind `10` is that of the `Error` tokens (R85). -/
theorem outKindOf_eq_two_iff (t : OutTok) : outKindOf t = 0b10#2 ↔ isError t = true := by
  cases t <;> simp [outKindOf, isError]

/-- Without `rst` ENC's pins encode the head of `pend` (R31, R85). -/
theorem encPort_of_pend {s : State} {t : OutTok} {rest : List OutTok} (hpend : s.enc.pend = t :: rest) :
    (encPort false s).outKind = outKindOf t ∧ (encPort false s).outData = outDataOf t := by
  simp [encPort, Engine.shown, hpend]

/-- Without `rst` DEC's pins encode the head of `pend` (R31, R85). -/
theorem decPort_of_pend {s : State} {t : OutTok} {rest : List OutTok} (hpend : s.dec.pend = t :: rest) :
    (decPort false s).outKind = outKindOf t ∧ (decPort false s).outData = outDataOf t := by
  simp [decPort, Engine.shown, hpend]

/-! ### Status words -/

theorem statusWord_fields : ∀ (tag : BitVec 2) (active busy : Bool) (result : BitVec 2),
    (statusWord tag active busy result).extractLsb' 0 2 = tag ∧
    (statusWord tag active busy result).getLsbD 2 = active ∧
    (statusWord tag active busy result).getLsbD 3 = busy ∧
    (statusWord tag active busy result).extractLsb' 4 2 = result ∧
    (statusWord tag active busy result).extractLsb' 6 2 = 0b00#2 := by decide

theorem busy_eq_decide {κ ρ : Type} (e : Engine κ ρ) : e.busy = decide (e.pend ≠ []) := by
  rw [Bool.eq_iff_iff, decide_eq_true_iff, Engine.busy_eq_true]

/-! ### A token offered to DEC -/

/-- Offered a token with nothing pending and no `rst`, DEC runs the row it decodes (R180, R187). -/
theorem decEdge_of_offer {p : Pins} {s : State} {i : Instr} (hrst : p.rst = false) (hvalid : p.inValid = true)
    (hpend : s.dec.pend = []) (hdec : decodeDec s.dec.core p.tokenWord = .ok i) : decEdge p s = exec i s := by
  have hready : acceptEnabled p s.dec = true := by
    simp [acceptEnabled, inReady_eq_decide, hrst, hvalid, hpend]
  simp only [decEdge, hrst, hready, hdec, Bool.false_eq_true, if_false, if_true]

theorem decodeTableWord_eq_some_iff {nbits w : Nat} {i : Instr} :
    decodeTableWord nbits w = some i ↔ decodeDec .ctrl (tableTokenWord nbits w) = .ok i := by
  unfold decodeTableWord
  cases decodeDec .ctrl (tableTokenWord nbits w) <;> simp

/-- The edge that places a table word is one at DEC alone: ENC's pins are all 0 there. -/
theorem step_withFetchWord (s : State) (nbits w : Nat) : step (s.withFetchWord nbits w) =
    decEdge (Pins.offer (tableTokenWord nbits w))
      { s with dec := { s.dec with core := .ctrl, pend := [] }, tick := s.tick + 1 } := rfl

end Sys2Proof.Machine
end

section
/-! PROOFS. The statements of 30_encoding.md: decoding (R83, R87), the control byte (R70, R73), and what the output and
status pins carry (R85, R86). -/

namespace Sys2Proof

open Machine

/-- Settles O4: an instruction's own word carries its token, which with a row that applies is all a decoder asks for. -/
theorem decodeOfEncode : Obligations.DecodeOfEncode :=
  fun _ _ hwf happ => decodeAt_eq_ok_iff.mpr ⟨rfl, hwf, happ, rfl⟩

/-- Settles O5: the answered row carries the word's token, and with it matches the word. -/
theorem decodeIsSound : Obligations.DecodeIsSound := by
  intro id s tw i h
  obtain ⟨hrow, hwf, happ, htok⟩ := decodeAt_eq_ok_iff.mp h
  exact ⟨hrow, hwf, happ, matchesWord_of_token hwf htok, htok⟩

/-- Settles O1: a decoder reads the token only, and with `in_kind = 1` that is `End` for all data. -/
theorem tokenWordReading : Obligations.TokenWordReading :=
  ⟨tokenOf_byteWord, tokenOf_kind_one,
    fun k d d' => decodeEnc_eq_of_token ((tokenOf_kind_one d).trans (tokenOf_kind_one d').symm) k,
    fun k d d' => decodeDec_eq_of_token ((tokenOf_kind_one d).trans (tokenOf_kind_one d').symm) k, fun _ => rfl⟩

/-- Settles O2: the ranges of the two legal classes, and the readings of a byte in them. -/
theorem controlByteMap : Obligations.ControlByteMap := by
  refine ⟨ctrlClass_eq_ranges, fun c n h => ?run, fun c len h => ?lit, fun n hlow hhigh => ?runControl,
    fun len hlow hhigh => ?litControl⟩
  case run =>
    obtain ⟨rfl, hlegal⟩ := ctrlClass_eq_run_iff.mp h
    exact ⟨s8_of_lt (by omega), hlegal⟩
  case lit =>
    obtain ⟨hc, hlegal⟩ := ctrlClass_eq_lit_iff.mp h
    refine ⟨?_, hlegal⟩
    rw [s8_of_ge (by omega)]
    omega
  case runControl =>
    have hc : (runControl n).toNat = n := Nat.mod_eq_of_lt (by omega)
    exact ⟨hc, ctrlClass_eq_run_iff.mpr ⟨hc, hlow, hhigh⟩⟩
  case litControl =>
    have hc : (litControl len).toNat = 256 - len := Nat.mod_eq_of_lt (by omega)
    exact ⟨hc, ctrlClass_eq_lit_iff.mpr ⟨hc, hlow, hhigh⟩⟩

/-- Settles O3: each word is computed through its token and core. -/
theorem sampleWordsDecode : Obligations.SampleWordsDecode := by
  refine ⟨?_, ?_, ?_, ?_, ?_, ?_, ?_, ?_, ?_⟩ <;> rfl

/-- Settles O34: both ports encode the head of `pend`, and ENC's invariant excludes an `Error` there. -/
theorem outputTokenEncoding : Obligations.OutputTokenEncoding := by
  refine ⟨fun s t rest hpend => ?dec, fun s b rest hpend => Prod.ext_iff.mpr (encPort_of_pend hpend),
    fun s rest hpend => Prod.ext_iff.mpr (encPort_of_pend hpend), fun s hinv hvalid => ?encKinds⟩
  case dec =>
    obtain ⟨hkind, hdata⟩ := decPort_of_pend hpend
    rw [hkind, hdata]
    refine ⟨?_, outKindOf_ne_three t⟩
    match t with
    | .byte _ | .endTok | .error .truncatedRecord | .error .invalidControlByte => rfl
  case encKinds =>
    obtain ⟨t, rest, hpend, hkind, -⟩ := encPort_of_outValid hvalid
    obtain ⟨-, ⟨-, -, -, -, -, hnoError, -⟩, -⟩ := hinv
    have hnot : isError t = false := by simpa using List.any_eq_false.mp hnoError t (by simp [hpend])
    rw [hkind]
    exact ⟨outKindOf_ne_three t, by simp [outKindOf_eq_two_iff, hnot]⟩

/-- Settles O35: the fields of a status word are those it is put together from. -/
theorem statusWordLayout : Obligations.StatusWordLayout := by
  refine ⟨fun e => ?enc, fun e => ?dec, fun _ _ => ⟨rfl, rfl⟩, fun _ _ => ⟨rfl, rfl, rfl, rfl⟩, rfl, rfl⟩
  case enc =>
    obtain ⟨htag, hactive, hbusy, hresult, hreserved⟩ :=
      statusWord_fields (encTag e.core) e.active e.busy (encResultCode e.result)
    exact ⟨htag, hactive, hbusy.trans (busy_eq_decide e), hresult, hreserved⟩
  case dec =>
    obtain ⟨htag, hactive, hbusy, hresult, hreserved⟩ :=
      statusWord_fields (decTag e.core) e.active e.busy (decResultCode e.result)
    exact ⟨htag, hactive, hbusy.trans (busy_eq_decide e), hresult, hreserved⟩

/-- Settles O37: the placed edge offers DEC, in `Ctrl` with nothing pending, the word that decodes to the row. -/
theorem placedWordRuns : Obligations.PlacedWordRuns := by
  intro s nbits w i h
  have hdec : decodeDec .ctrl (Pins.offer (tableTokenWord nbits w)).tokenWord = .ok i := by
    rw [tokenWord_offer]
    exact decodeTableWord_eq_some_iff.mp h
  exact (step_withFetchWord s nbits w).trans (decEdge_of_offer rfl rfl rfl hdec)

end Sys2Proof
end

section
/-! SUPPORT. A row called with nothing pending outside its operands, core or guard is refused (log entry 6). -/

namespace Sys2Proof.Machine

/-- `Accept` on ENC by a rule with no effect in this core. -/
theorem acceptEnc_refused {t : InTok} {rule : EncState → Option EncState} {s : State} (hpend : s.enc.pend = [])
    (hrule : ∀ e : EncState, e.core = s.enc.core → rule e = none) :
    acceptEnc t rule s = .refused .ruleNotApplicable := by
  have h := hrule ((s.enc.begin .none).countIn s.cntW t) (by simp)
  simp [acceptEnc, Engine.busy, hpend, Engine.accept, h]

/-- `Accept` on DEC by a rule with no effect in this core. -/
theorem acceptDec_refused {t : InTok} {rule : DecState → Option DecState} {s : State} (hpend : s.dec.pend = [])
    (hrule : ∀ e : DecState, e.core = s.dec.core → rule e = none) :
    acceptDec t rule s = .refused .ruleNotApplicable := by
  have h := hrule ((s.dec.begin .none).countIn s.cntW t) (by simp)
  simp [acceptDec, Engine.busy, hpend, Engine.accept, h]

/-- A row of ENC is refused where it does not apply: in each core its rule's guard is the guard of R114. -/
theorem exec_refused_of_encRow {i : Instr} {s : State} (hrow : i.row.engine = .enc) (hpend : s.enc.pend = [])
    (happ : i.appliesIn s = false) : exec i s = .refused .ruleNotApplicable := by
  cases i with
  | eIdleByte | eEndIdle | eLitCap | eLitMatch | eLitAppend | eRunExtend | eRunCap | eRunBreak | eEndLit | eEndRun =>
    refine acceptEnc_refused hpend fun e he => ?_
    cases hcore : s.enc.core <;> simp_all [Instr.appliesIn]
  | dCtrlRun | dCtrlLit | dCtrlInvalid00 | dCtrlInvalid01 | dCtrlInvalid80 | dRunvalByte | dLitpayByte | dDrainByte
  | dEndCtrl | dEndRunval | dEndLitpay | dEndDrain => cases hrow

/-- The rows of ENC admit every operand (R78). -/
theorem wellFormed_of_encRow {i : Instr} (hrow : i.row.engine = .enc) : i.wellFormed = true := by
  cases i with
  | eIdleByte | eLitCap | eLitMatch | eLitAppend | eRunExtend | eRunCap | eRunBreak | eEndIdle | eEndLit | eEndRun =>
    rfl
  | dCtrlRun | dCtrlLit | dCtrlInvalid00 | dCtrlInvalid01 | dCtrlInvalid80 | dRunvalByte | dLitpayByte | dDrainByte
  | dEndCtrl | dEndRunval | dEndLitpay | dEndDrain => cases hrow

/-- A run control byte belongs to D.CTRL.RUN (R141). -/
theorem dCtrlRun_wellFormed {c : Byte} {n : Nat} (h : ctrlClass c = .run n) : (Instr.dCtrlRun c).wellFormed = true := by
  obtain ⟨rfl, hlegal⟩ := ctrlClass_eq_run_iff.mp h
  exact decide_eq_true hlegal

/-- A literal control byte belongs to D.CTRL.LIT (R142). -/
theorem dCtrlLit_wellFormed {c : Byte} {len : Nat} (h : ctrlClass c = .lit len) :
    (Instr.dCtrlLit c).wellFormed = true := by
  obtain ⟨hc, hlegal⟩ := ctrlClass_eq_lit_iff.mp h
  exact decide_eq_true (by omega)

/-- A row of DEC is refused outside its operands or where it does not apply (R151). -/
theorem exec_refused_of_decRow {i : Instr} {s : State} (hrow : i.row.engine = .dec) (hpend : s.dec.pend = [])
    (happ : i.wellFormed = true → i.appliesIn s = false) : exec i s = .refused .ruleNotApplicable := by
  cases i with
  | dCtrlRun c =>
    refine acceptDec_refused hpend fun e he => ?_
    split
    next hcore hclass => simpa [Instr.appliesIn, ← he, hcore] using happ (dCtrlRun_wellFormed hclass)
    next => rfl
  | dCtrlLit c =>
    refine acceptDec_refused hpend fun e he => ?_
    split
    next hcore hclass => simpa [Instr.appliesIn, ← he, hcore] using happ (dCtrlLit_wellFormed hclass)
    next => rfl
  | dCtrlInvalid00 | dCtrlInvalid01 | dCtrlInvalid80 =>
    refine acceptDec_refused hpend fun e he => ?_
    cases hcore : s.dec.core <;> simp_all [invalidControl, Instr.appliesIn, Instr.wellFormed]
  | dRunvalByte | dLitpayByte | dDrainByte | dEndCtrl | dEndRunval | dEndLitpay | dEndDrain =>
    refine acceptDec_refused hpend fun e he => ?_
    cases hcore : s.dec.core <;> simp_all [Instr.appliesIn, Instr.wellFormed]
  | eIdleByte | eLitCap | eLitMatch | eLitAppend | eRunExtend | eRunCap | eRunBreak | eEndIdle | eEndLit | eEndRun =>
    cases hrow

end Sys2Proof.Machine
end

section
/-! SUPPORT. Where the machine does not stop: a legal core has exactly one row for every word (R115, R151), and an edge
at an engine in its invariant answers a next state. -/

namespace Sys2Proof

open Machine

/-! ### A row for every word -/

/-- ENC's decoder answers a row that applies for every word with the row's token (R87). -/
theorem decodeEnc_of_applies {s : State} {i : Instr} {tw : TokenWord} (hrow : i.row.engine = .enc)
    (happ : i.appliesIn s = true) (htok : tokenOf (encode i) = tokenOf tw) : decodeEnc s.enc.core tw = .ok i :=
  (decodeEnc_eq_of_token htok _).symm.trans (decodeEnc_encode hrow happ)

theorem litLegal_of_encCoreLegal {buf : List Byte} (h : encCoreLegal (.lit buf) = true) : litLegal buf = true :=
  (litLegal_iff buf).mpr (of_decide_eq_true (Bool.and_eq_true_iff.mp h).1)

/-- In a legal core ENC's decoder answers every word (R115). -/
theorem decodeEnc_total {k : EncCore} (hk : encCoreLegal k = true) (tw : TokenWord) : ∃ i, decodeEnc k tw = .ok i := by
  cases htok : tokenOf tw <;> cases k <;> simp only [decodeEnc, htok]
  case byte.idle | endTok.idle => exact ⟨_, rfl⟩
  case byte.lit b buf =>
    obtain ⟨hpos, hlen⟩ := (litLegal_iff buf).mp (litLegal_of_encCoreLegal hk)
    split_ifs with hfull hopen hlast
    · exact ⟨_, rfl⟩
    · exact ⟨_, rfl⟩
    · exact ⟨_, rfl⟩
    · rw [litFull_iff] at hfull
      exact absurd ((litOpen_iff buf).mpr ⟨hpos, by omega⟩) hopen
  case byte.run b v n =>
    rw [if_pos ((runLegal_iff n).mpr (of_decide_eq_true hk))]
    split_ifs <;> exact ⟨_, rfl⟩
  case endTok.lit buf => exact ⟨_, if_pos (litLegal_of_encCoreLegal hk)⟩
  case endTok.run v n => exact ⟨_, if_pos ((runLegal_iff n).mpr (of_decide_eq_true hk))⟩

/-- In a legal core DEC's decoder answers every word (R151). -/
theorem decodeDec_total {k : DecCore} (hk : decCoreLegal k = true) (tw : TokenWord) : ∃ i, decodeDec k tw = .ok i := by
  cases htok : tokenOf tw <;> cases k <;> simp only [decodeDec, htok]
  case byte.ctrl | byte.drain | endTok.ctrl | endTok.drain => exact ⟨_, rfl⟩
  case byte.runVal b n | endTok.runVal n => exact ⟨_, if_pos ((runLegal_iff n).mpr (of_decide_eq_true hk))⟩
  case byte.litPay b r | endTok.litPay r => exact ⟨_, if_pos ((payLegal_iff r).mpr (of_decide_eq_true hk))⟩

/-- Beside the row a decoder answers no other row of the engine applies and matches the word with its operand (R87). -/
theorem row_unique_of_decodeAt {id : EngineId} {s : State} {tw : TokenWord} {i : Instr}
    (h : decodeAt id s tw = .ok i) (j : Instr) :
    (j.row.engine = id ∧ j.wellFormed = true ∧ j.appliesIn s = true ∧ j.row.matchesWord tw = true ∧
      tokenOf (encode j) = tokenOf tw) ↔ j = i := by
  constructor
  · rintro ⟨hrow, hwf, happ, -, htok⟩
    exact Except.ok.inj ((decodeAt_eq_ok_iff.mpr ⟨hrow, hwf, happ, htok⟩).symm.trans h)
  · rintro rfl
    obtain ⟨hrow, hwf, happ, htok⟩ := decodeAt_eq_ok_iff.mp h
    exact ⟨hrow, hwf, happ, matchesWord_of_token hwf htok, htok⟩

/-! ### Edges that do not stop -/

/-- With no `Error` pending `Deliver` on ENC answers a next state (R204). -/
theorem deliverEnc_total {s : State} (h : s.enc.pend.any isError = false) : ∃ t, deliverEnc s = .next t := by
  unfold deliverEnc
  cases hpend : s.enc.pend with
  | nil => exact ⟨_, rfl⟩
  | cons o rest =>
    cases o with
    | byte | endTok => exact ⟨_, rfl⟩
    | error => simp [hpend, isError] at h

/-- `Deliver` on DEC always answers a next state. -/
theorem deliverDec_total (s : State) : ∃ t, deliverDec s = .next t := by
  unfold deliverDec
  split <;> exact ⟨_, rfl⟩

/-- An enabled `Accept` finds nothing pending (R31, R180). -/
theorem pend_of_acceptEnabled {κ ρ : Type} {p : Pins} {e : Engine κ ρ} (h : acceptEnabled p e = true) :
    e.pend = [] := by
  simp only [acceptEnabled, inReady_eq_decide, Bool.and_eq_true, decide_eq_true_iff] at h
  exact h.2.1

/-- In its invariant ENC answers a next state at every edge (R115, R204). -/
theorem encEdge_total {s : State} (hinv : EncInv s.cntW s.enc) (p : Pins) : ∃ t, encEdge p s = .next t := by
  obtain ⟨hcore, -, -, -, -, hnoError, -⟩ := hinv
  unfold encEdge
  split_ifs with hrst haccept hdeliver
  · exact ⟨_, rfl⟩
  · obtain ⟨i, hdec⟩ := decodeEnc_total hcore p.tokenWord
    rw [hdec]
    exact ⟨_, exec_of_decodeEnc_eq_table (pend_of_acceptEnabled haccept) hdec⟩
  · exact deliverEnc_total hnoError
  · exact ⟨_, rfl⟩

/-- In its invariant DEC answers a next state at every edge (R151). -/
theorem decEdge_total {s : State} (hinv : DecInv s.cntW s.dec) (p : Pins) : ∃ t, decEdge p s = .next t := by
  obtain ⟨hcore, -⟩ := hinv
  unfold decEdge
  split_ifs with hrst haccept hdeliver
  · exact ⟨_, rfl⟩
  · obtain ⟨i, hdec⟩ := decodeDec_total hcore p.tokenWord
    rw [hdec]
    exact ⟨_, exec_of_decodeDec_eq_table (pend_of_acceptEnabled haccept) hdec⟩
  · exact deliverDec_total s
  · exact ⟨_, rfl⟩

end Sys2Proof
end

section
/-! SUPPORT. ENC's table on the bytes of one record, which it holds at the end, and of a record that may follow another
by R124, which it emits meanwhile (R101 to R113, R120). -/

namespace Sys2Proof

open Machine

/-! ### Tables over sequences -/

/-- A table over two sequences of tokens, one after the other (R60). -/
theorem runTable_append {κ : Type} (table : κ → InTok → κ × List OutTok) (k : κ) (ts us : List InTok) :
    runTable table k (ts ++ us) =
      ((runTable table (runTable table k ts).1 us).1,
        (runTable table k ts).2 ++ (runTable table (runTable table k ts).1 us).2) := by
  induction ts generalizing k with
  | nil => rfl
  | cons t ts ih => simp [runTable, ih]

@[simp] theorem bytesOf_map_byte (bs : List Byte) : bytesOf (bs.map .byte) = bs := by
  induction bs with
  | nil => rfl
  | cons b bs ih => simp [bytesOf, ih]

@[simp] theorem bytesOf_append (ts us : List OutTok) : bytesOf (ts ++ us) = bytesOf ts ++ bytesOf us := by
  induction ts with
  | nil => rfl
  | cons t ts ih => cases t <;> simp [bytesOf, ih]

@[simp] theorem recordBytes_append (rs qs : List Record) : recordBytes (rs ++ qs) = recordBytes rs ++ recordBytes qs :=
  List.flatMap_append

@[simp] theorem recordExpansion_append (rs qs : List Record) :
    recordExpansion (rs ++ qs) = recordExpansion rs ++ recordExpansion qs :=
  List.flatMap_append

@[simp] theorem recordBytes_singleton (r : Record) : recordBytes [r] = r.bytes := List.append_nil _

@[simp] theorem recordExpansion_singleton (r : Record) : recordExpansion [r] = r.expand := List.append_nil _

/-! ### The record ENC holds -/

/-- ENC's core while it holds the bytes of `r` (R22, R120). -/
def Record.core : Record → EncCore
  | .run n v => .run v n
  | .lit p => .lit p

@[simp] theorem held_core (r : Record) : held r.core = r.expand := by cases r <;> rfl

/-- `End` makes ENC emit the record it holds (R112, R113). -/
theorem encTable_core_endTok (r : Record) :
    encTable r.core .endTok = (.idle, r.bytes.map .byte ++ [.endTok]) := by cases r <;> rfl

theorem emittable_run_iff {n : Nat} {v : Byte} : (Record.run n v).emittable = true ↔ 2 ≤ n ∧ n ≤ 127 :=
  decide_eq_true_iff

theorem emittable_lit_iff {p : List Byte} :
    (Record.lit p).emittable = true ↔ (1 ≤ p.length ∧ p.length ≤ 127) ∧ adjacentDistinct p = true := by
  simp [Record.emittable, Record.legal]

theorem length_expand_le {r : Record} (hr : r.emittable = true) : r.expand.length ≤ 127 := by
  cases r with
  | run n v => simpa [Record.expand] using (emittable_run_iff.mp hr).2
  | lit p => exact (emittable_lit_iff.mp hr).1.2

/-! ### ENC on one record -/

/-- Bytes that keep neighbours distinct are appended to the literal, up to the cap (R107). -/
theorem runTable_lit_appends {buf : List Byte} (p : List Byte) (hne : buf ≠ [])
    (hdistinct : adjacentDistinct (buf ++ p) = true) (hlen : (buf ++ p).length ≤ 127) :
    runTable encTable (.lit buf) (p.map .byte) = (.lit (buf ++ p), []) := by
  induction p generalizing buf with
  | nil => simp [runTable]
  | cons b p ih =>
    have hbelow : buf.length ≠ 127 := by
      rw [List.length_append, List.length_cons] at hlen
      omega
    have hother : buf.getLast? ≠ some b := by
      rw [adjacentDistinct_iff_isChain, List.isChain_append] at hdistinct
      obtain ⟨-, -, hjoin⟩ := hdistinct
      exact fun hlast => hjoin b hlast b rfl rfl
    rw [List.append_cons] at hdistinct hlen
    have hstep : encTable (.lit buf) (.byte b) = (.lit (buf ++ [b]), []) := by simp [encTable, hbelow, hother]
    simp [runTable, hstep, ih (by simp) hdistinct hlen]

/-- Repeats of its byte extend a run, up to the cap (R108). -/
theorem runTable_run_extends (v : Byte) (n m : Nat) (h : n + m ≤ 127) :
    runTable encTable (.run v n) ((List.replicate m v).map .byte) = (.run v (n + m), []) := by
  induction m generalizing n with
  | zero => rfl
  | succ m ih =>
    have hbelow : n < 127 := by omega
    have hstep : encTable (.run v n) (.byte v) = (.run v (n + 1), []) := by simp [encTable, hbelow]
    simp only [List.replicate_succ, List.map_cons, runTable, hstep, ih (n + 1) (by omega), List.nil_append]
    rw [Nat.add_right_comm, Nat.add_assoc]

/-- From the literal of its first byte ENC takes in the rest of a record without output: a literal's by R107, a run's
by R106 and R108. -/
theorem runTable_tail {r : Record} {b : Byte} {bs : List Byte} (hr : r.emittable = true)
    (hexpand : r.expand = b :: bs) : runTable encTable (.lit [b]) (bs.map .byte) = (r.core, []) := by
  cases r with
  | lit p =>
    obtain ⟨⟨-, hlen⟩, hdistinct⟩ := emittable_lit_iff.mp hr
    obtain rfl : p = b :: bs := hexpand
    exact runTable_lit_appends bs (List.cons_ne_nil b []) hdistinct hlen
  | run n v =>
    obtain ⟨hlow, hhigh⟩ := emittable_run_iff.mp hr
    obtain ⟨m, rfl⟩ := Nat.exists_eq_add_of_le' hlow
    obtain ⟨rfl, rfl⟩ : v = b ∧ v :: List.replicate m v = bs := List.cons_eq_cons.mp hexpand
    have hmatch : encTable (.lit [v]) (.byte v) = (.run v 2, []) := by simp [encTable]
    simp only [List.map_cons, runTable, hmatch, runTable_run_extends v 2 m (by omega), List.nil_append, Record.core]
    rw [Nat.add_comm]

/-- An emittable record stands for at least one byte (R80). -/
theorem exists_expand_eq_cons {r : Record} (hr : r.emittable = true) : ∃ b bs, r.expand = b :: bs := by
  refine List.ne_nil_iff_exists_cons.mp (List.ne_nil_of_length_pos ?_)
  cases r with
  | run n v => simpa [Record.expand] using Nat.zero_lt_of_lt (emittable_run_iff.mp hr).1
  | lit p => exact (emittable_lit_iff.mp hr).1.1

/-- ENC in `Idle` takes in a record without output (R103). -/
theorem runTable_idle_record {r : Record} (hr : r.emittable = true) :
    runTable encTable .idle (r.expand.map .byte) = (r.core, []) := by
  obtain ⟨b, bs, hexpand⟩ := exists_expand_eq_cons hr
  rw [hexpand]
  simpa [runTable, encTable] using runTable_tail hr hexpand

/-! ### ENC on two consecutive records (R124) -/

/-- A record that may precede the literal of `b` is emitted when `b` comes (R104, R109, R110). -/
theorem encTable_core_flushes {q : Record} {b : Byte} (hq : q.emittable = true)
    (hpre : q.mayPrecede (.lit [b]) = true) : encTable q.core (.byte b) = (.lit [b], q.bytes.map .byte) := by
  cases q with
  | lit p =>
    have hfull : p.length = 127 := of_decide_eq_true hpre
    simp [Record.core, encTable, hfull, litTokens_eq_map]
  | run n v =>
    have hbreak : b ≠ v ∨ n = 127 := by simpa [Record.mayPrecede] using hpre
    obtain ⟨-, hhigh⟩ := emittable_run_iff.mp hq
    simp only [Record.core, encTable]
    split_ifs with heq hbelow
    · exact absurd hbreak (by simp [heq, hbelow.ne])
    · obtain rfl : n = 127 := by omega
      rfl
    · rfl

/-- A literal below the cap is emitted when a run of another byte has shown its first two bytes (R107, R106). -/
theorem runTable_lit_then_run {p : List Byte} {b : Byte} (hpos : 1 ≤ p.length) (hlen : p.length ≤ 125)
    (hlast : p.getLast? ≠ some b) :
    runTable encTable (.lit p) [.byte b, .byte b] = (.run b 2, (Record.lit p).bytes.map .byte) := by
  have hne : p ≠ [] := List.ne_nil_of_length_pos hpos
  have hcap : p.length ≠ 127 := by omega
  have hcapNext : (p ++ [b]).length ≠ 127 := by
    rw [List.length_append, List.length_singleton]
    omega
  have happend : encTable (.lit p) (.byte b) = (.lit (p ++ [b]), []) := by simp [encTable, hcap, hlast]
  have hmatch : encTable (.lit (p ++ [b])) (.byte b) = (.run b 2, litTokens p) := by
    simp only [encTable, if_neg hcapNext, List.getLast?_concat, if_true, List.dropLast_concat, if_neg hne]
  simp [runTable, happend, hmatch, litTokens_eq_map]

/-- What may precede a record may precede the literal of its first byte, but for the literal that a run follows below
the cap (R124). -/
theorem mayPrecede_cases {q r : Record} {b : Byte} {bs : List Byte} (hexpand : r.expand = b :: bs)
    (hpre : q.mayPrecede r = true) : q.mayPrecede (.lit [b]) = true ∨
      ∃ p n, q = .lit p ∧ r = .run n b ∧ p.length ≤ 125 ∧ p.getLast? ≠ some b := by
  cases r with
  | lit p =>
    obtain rfl : p = b :: bs := hexpand
    cases q <;> exact .inl hpre
  | run n v =>
    cases n with
    | zero => cases hexpand
    | succ n =>
      obtain ⟨rfl, -⟩ : v = b ∧ List.replicate n v = bs := List.cons_eq_cons.mp hexpand
      cases q with
      | lit p =>
        obtain hfull | ⟨hlen, hlast⟩ : p.length = 127 ∨ p.length ≤ 125 ∧ p.getLast? ≠ some v := of_decide_eq_true hpre
        · exact .inl (decide_eq_true hfull)
        · exact .inr ⟨p, n + 1, rfl, rfl, hlen, hlast⟩
      | run m w => exact .inl (by simpa [Record.mayPrecede] using hpre)

/-- While it takes in a record ENC emits the one before it. -/
theorem runTable_core_record {q r : Record} (hq : q.emittable = true) (hr : r.emittable = true)
    (hpre : q.mayPrecede r = true) :
    runTable encTable q.core (r.expand.map .byte) = (r.core, q.bytes.map .byte) := by
  obtain ⟨b, bs, hexpand⟩ := exists_expand_eq_cons hr
  obtain hflush | ⟨p, n, rfl, rfl, hlen, hlast⟩ := mayPrecede_cases hexpand hpre
  · rw [hexpand]
    simp only [List.map_cons, runTable, encTable_core_flushes hq hflush, runTable_tail hr hexpand, List.append_nil]
  · obtain ⟨⟨hpos, -⟩, -⟩ := emittable_lit_iff.mp hq
    obtain ⟨hlow, hhigh⟩ := emittable_run_iff.mp hr
    obtain ⟨m, rfl⟩ := Nat.exists_eq_add_of_le hlow
    have hsplit : (Record.run (2 + m) b).expand = [b, b] ++ List.replicate m b := List.replicate_add 2 m b
    rw [hsplit, List.map_append, runTable_append]
    simp only [Record.core, List.map_cons, List.map_nil, runTable_lit_then_run hpos hlen hlast,
      runTable_run_extends b 2 m hhigh, List.append_nil]

end Sys2Proof
end

section
/-! SUPPORT. Canonical record lists (R121, R124): ENC on the expansion of one emits exactly its records (R120), and
every byte list is the expansion of one. -/

namespace Sys2Proof

open Machine

/-! ### Canonical record lists -/

/-- The records of a canonical stream: each one ENC may emit (R121, R122), each two consecutive ones meeting R124. -/
def CanonicalRecords (rs : List Record) : Prop :=
  (∀ r ∈ rs, r.emittable = true) ∧ adjacencyOk rs = true

theorem adjacencyOk_iff_isChain (rs : List Record) :
    adjacencyOk rs = true ↔ rs.IsChain (fun q r => q.mayPrecede r = true) := by
  induction rs with
  | nil => simp [adjacencyOk]
  | cons q rs ih =>
    cases rs with
    | nil => simp [adjacencyOk]
    | cons r rs => simp [adjacencyOk, ih]

theorem canonicalRecords_nil : CanonicalRecords [] := ⟨by simp, rfl⟩

/-- A list is canonical when it is so without its last record, which is emittable and may follow the one before it. -/
theorem canonicalRecords_concat_iff {rs : List Record} {r : Record} : CanonicalRecords (rs ++ [r]) ↔
    CanonicalRecords rs ∧ r.emittable = true ∧ ∀ q ∈ rs.getLast?, q.mayPrecede r = true := by
  simp only [CanonicalRecords, adjacencyOk_iff_isChain, List.isChain_append, List.forall_mem_append,
    List.forall_mem_singleton, List.isChain_singleton, List.head?_cons, Option.mem_def, Option.some.injEq,
    forall_eq', true_and]
  tauto

/-- One more record that may follow the last one. -/
theorem CanonicalRecords.push {rs : List Record} {q r : Record} (h : CanonicalRecords (rs ++ [q]))
    (hr : r.emittable = true) (hpre : q.mayPrecede r = true) : CanonicalRecords (rs ++ [q, r]) := by
  rw [List.append_cons, canonicalRecords_concat_iff]
  exact ⟨h, hr, by simpa using hpre⟩

/-- Another last record, that may follow whatever the old one may. -/
theorem CanonicalRecords.replaceLast {rs : List Record} {r r' : Record} (h : CanonicalRecords (rs ++ [r]))
    (hr : r'.emittable = true) (hpre : ∀ q : Record, q.mayPrecede r = true → q.mayPrecede r' = true) :
    CanonicalRecords (rs ++ [r']) := by
  obtain ⟨hrs, -, hlast⟩ := canonicalRecords_concat_iff.mp h
  exact canonicalRecords_concat_iff.mpr ⟨hrs, hr, fun q hq => hpre q (hlast q hq)⟩

/-- ENC on the expansion of a canonical list holds its last record and has emitted the others (R120). -/
theorem runTable_of_canonicalRecords {rs : List Record} {r : Record} (h : CanonicalRecords (rs ++ [r])) :
    runTable encTable .idle ((recordExpansion (rs ++ [r])).map .byte) = (r.core, (recordBytes rs).map .byte) := by
  induction rs using List.reverseRecOn generalizing r with
  | nil =>
    obtain ⟨-, hr, -⟩ := canonicalRecords_concat_iff.mp h
    rw [List.nil_append, recordExpansion_singleton]
    exact runTable_idle_record hr
  | append_singleton rs q ih =>
    obtain ⟨hrs, hr, hpre⟩ := canonicalRecords_concat_iff.mp h
    obtain ⟨-, hq, -⟩ := canonicalRecords_concat_iff.mp hrs
    have hstep := runTable_core_record hq hr (hpre q List.getLast?_concat)
    rw [recordExpansion_append, List.map_append, runTable_append, ih hrs, recordExpansion_singleton, hstep,
      recordBytes_append, recordBytes_singleton, List.map_append]

/-- ENC of the expansion of a canonical list is the bytes of its records, then `End` (R123, R124). -/
theorem encOutputs_of_canonicalRecords {rs : List Record} (h : CanonicalRecords rs) :
    encOutputs (recordExpansion rs) = (recordBytes rs).map .byte ++ [.endTok] := by
  obtain rfl | ⟨rs, r, rfl⟩ := rs.eq_nil_or_concat'
  · rfl
  · simp only [encOutputs, invocation, runTable_append, runTable_of_canonicalRecords h, runTable, encTable_core_endTok]
    simp

theorem encBytes_of_canonicalRecords {rs : List Record} (h : CanonicalRecords rs) :
    encBytes (recordExpansion rs) = recordBytes rs := by
  simp [encBytes, encOutputs_of_canonicalRecords h, bytesOf]

/-- ENC of the bytes of a full run and one more record is those two records (R109). -/
theorem encBytes_full_run_then {v : Byte} {r : Record} (hr : r.emittable = true) :
    encBytes (List.replicate 127 v ++ r.expand) = 0x7F#8 :: v :: r.bytes := by
  have hrs : CanonicalRecords [.run 127 v, r] := by
    refine ⟨by simp [hr, emittable_run_iff], ?_⟩
    cases r <;> simp [adjacencyOk, Record.mayPrecede]
  simpa [recordExpansion, recordBytes, Record.expand, Record.bytes] using encBytes_of_canonicalRecords hrs

/-! ### Every byte list is the expansion of a canonical list -/

/-- `xs` is the expansion of a canonical list of records. -/
def HasCanonicalRecords (xs : List Byte) : Prop := ∃ rs, CanonicalRecords rs ∧ recordExpansion rs = xs

theorem emittable_lit_singleton (b : Byte) : (Record.lit [b]).emittable = true := rfl

/-- What may precede a literal depends on the literal's first byte only (R124). -/
theorem mayPrecede_lit_of_head? {q : Record} {p p' : List Byte} (hhead : p'.head? = p.head?)
    (h : q.mayPrecede (.lit p) = true) : q.mayPrecede (.lit p') = true := by
  cases q with
  | lit a => exact h
  | run n v => simpa only [Record.mayPrecede, hhead] using h

/-- What may precede the literal of one byte may precede a run of it (R124). -/
theorem mayPrecede_run_of_lit_singleton {q : Record} {b : Byte} (n : Nat) (h : q.mayPrecede (.lit [b]) = true) :
    q.mayPrecede (.run n b) = true := by
  cases q with
  | lit a => exact decide_eq_true (.inl (of_decide_eq_true h))
  | run m v => simpa [Record.mayPrecede] using h

/-- What may precede a run depends on the run's byte only (R124). -/
theorem mayPrecede_run_count {q : Record} {b : Byte} {n : Nat} (m : Nat) (h : q.mayPrecede (.run n b) = true) :
    q.mayPrecede (.run m b) = true := by
  cases q <;> exact h

/-- A byte whose literal may follow the last record is a literal of its own (R104, R109, R110). -/
theorem hasCanonicalRecords_push {rs : List Record} {q : Record} {b : Byte} (h : CanonicalRecords (rs ++ [q]))
    (hpre : q.mayPrecede (.lit [b]) = true) :
    HasCanonicalRecords (recordExpansion (rs ++ [q]) ++ [b]) :=
  ⟨rs ++ [q, .lit [b]], h.push (emittable_lit_singleton b) hpre, by simp [recordExpansion, Record.expand]⟩

/-- A repeat of a literal's last byte leaves the bytes before it, if there are any, and a run of two (R106). -/
theorem hasCanonicalRecords_match {rs : List Record} {p : List Byte} {b : Byte}
    (h : CanonicalRecords (rs ++ [.lit (p ++ [b])])) (hlen : (p ++ [b]).length < 127) :
    HasCanonicalRecords (recordExpansion (rs ++ [.lit (p ++ [b])]) ++ [b]) := by
  have hrun : (Record.run 2 b).emittable = true := rfl
  by_cases hempty : p = []
  · subst hempty
    exact ⟨rs ++ [.run 2 b], h.replaceLast hrun fun q => mayPrecede_run_of_lit_singleton 2,
      by simp [recordExpansion, Record.expand, List.replicate]⟩
  · obtain ⟨-, hlit, -⟩ := canonicalRecords_concat_iff.mp h
    obtain ⟨-, hdistinct⟩ := emittable_lit_iff.mp hlit
    rw [adjacentDistinct_iff_isChain, List.isChain_append] at hdistinct
    obtain ⟨hchain, -, hlast⟩ := hdistinct
    rw [List.length_append, List.length_singleton] at hlen
    have hshort : (Record.lit p).emittable = true :=
      emittable_lit_iff.mpr ⟨⟨List.length_pos_iff.mpr hempty, by omega⟩, (adjacentDistinct_iff_isChain p).mpr hchain⟩
    have hpre : (Record.lit p).mayPrecede (.run 2 b) = true :=
      decide_eq_true (.inr ⟨by omega, fun hb => hlast b hb b rfl rfl⟩)
    have hhead : p.head? = (p ++ [b]).head? := (List.head?_append_of_ne_nil p hempty).symm
    exact ⟨rs ++ [.lit p, .run 2 b], (h.replaceLast hshort fun q => mayPrecede_lit_of_head? hhead).push hrun hpre,
      by simp [recordExpansion, Record.expand, List.replicate]⟩

/-- Any other byte makes a literal below the cap grow (R107). -/
theorem hasCanonicalRecords_append {rs : List Record} {p : List Byte} {b : Byte}
    (h : CanonicalRecords (rs ++ [.lit p])) (hlen : p.length < 127) (hother : p.getLast? ≠ some b) :
    HasCanonicalRecords (recordExpansion (rs ++ [.lit p]) ++ [b]) := by
  obtain ⟨-, hlit, -⟩ := canonicalRecords_concat_iff.mp h
  obtain ⟨⟨hpos, -⟩, hdistinct⟩ := emittable_lit_iff.mp hlit
  have hgrown : (Record.lit (p ++ [b])).emittable = true :=
    emittable_lit_iff.mpr ⟨⟨by simp, by simpa using hlen⟩, adjacentDistinct_append hdistinct hother⟩
  have hhead : (p ++ [b]).head? = p.head? := List.head?_append_of_ne_nil p (List.ne_nil_of_length_pos hpos)
  exact ⟨rs ++ [.lit (p ++ [b])], h.replaceLast hgrown fun q => mayPrecede_lit_of_head? hhead,
    by simp [recordExpansion, Record.expand]⟩

/-- A repeat of a run's byte makes a run below the cap grow (R108). -/
theorem hasCanonicalRecords_extend {rs : List Record} {n : Nat} {v : Byte}
    (h : CanonicalRecords (rs ++ [.run n v])) (hbelow : n < 127) :
    HasCanonicalRecords (recordExpansion (rs ++ [.run n v]) ++ [v]) := by
  obtain ⟨-, hrun, -⟩ := canonicalRecords_concat_iff.mp h
  obtain ⟨hlow, -⟩ := emittable_run_iff.mp hrun
  exact ⟨rs ++ [.run (n + 1) v],
    h.replaceLast (emittable_run_iff.mpr ⟨by omega, hbelow⟩) fun q => mayPrecede_run_count (n + 1),
    by simp [recordExpansion, Record.expand, List.replicate_succ']⟩

/-- One more byte, by the cases of ENC's rules (R103 to R110). -/
theorem hasCanonicalRecords_concat_byte {rs : List Record} (h : CanonicalRecords rs) (b : Byte) :
    HasCanonicalRecords (recordExpansion rs ++ [b]) := by
  obtain rfl | ⟨rs, r, rfl⟩ := rs.eq_nil_or_concat'
  · exact ⟨[.lit [b]], ⟨by simp [emittable_lit_singleton], rfl⟩, rfl⟩
  obtain ⟨-, hr, -⟩ := canonicalRecords_concat_iff.mp h
  cases r with
  | lit p =>
    obtain ⟨⟨-, hlen⟩, -⟩ := emittable_lit_iff.mp hr
    obtain hfull | hbelow := hlen.eq_or_lt
    · exact hasCanonicalRecords_push h (decide_eq_true hfull)
    · by_cases hlast : p.getLast? = some b
      · obtain ⟨p, rfl⟩ := List.getLast?_eq_some_iff.mp hlast
        exact hasCanonicalRecords_match h hbelow
      · exact hasCanonicalRecords_append h hbelow hlast
  | run n v =>
    obtain ⟨-, hhigh⟩ := emittable_run_iff.mp hr
    by_cases hbreak : b ≠ v ∨ n = 127
    · exact hasCanonicalRecords_push h (by simpa [Record.mayPrecede] using hbreak)
    · obtain ⟨rfl, hne⟩ : b = v ∧ n ≠ 127 := by simpa using hbreak
      exact hasCanonicalRecords_extend h (by omega)

/-- Every byte list is the expansion of a canonical list of records. -/
theorem hasCanonicalRecords (xs : List Byte) : HasCanonicalRecords xs := by
  induction xs using List.reverseRecOn with
  | nil => exact ⟨[], canonicalRecords_nil, rfl⟩
  | append_singleton xs b ih =>
    obtain ⟨rs, hrs, rfl⟩ := ih
    exact hasCanonicalRecords_concat_byte hrs b

end Sys2Proof
end

section
/-! PROOFS. The statements of 40_encoder.md: ENC's rules (R103 to R114), that no word is without a row (R115), and the
records it emits (R120 to R124). -/

namespace Sys2Proof

open Machine

/-! ### All rows at once -/

/-- Settles O6: a legal core decodes every word, and what decoding answers is the only row that applies. -/
theorem encExactlyOneRow : Obligations.EncExactlyOneRow := by
  intro s tw hcore
  obtain ⟨i, hdec⟩ := decodeEnc_total hcore tw
  exact ⟨i, hdec, row_unique_of_decodeAt (id := .enc) hdec⟩

/-- Settles O28: row by row, in `exec_of_decodeEnc_eq_table`. -/
theorem encRunsItsTable : Obligations.EncRunsItsTable := fun _ _ _ => exec_of_decodeEnc_eq_table

/-- Settles O30: a row that applies is what its own word decodes to, so it runs its table; any other is refused. -/
theorem rowsCompleteExactlyWhereTheyApply : Obligations.RowsCompleteExactlyWhereTheyApply := by
  intro i s henc hdec
  split_ifs with happlies
  · obtain ⟨hwf, happ⟩ := happlies
    cases hrow : i.row.engine with
    | enc => exact ⟨_, exec_of_decodeEnc_eq_table (henc hrow) (decodeEnc_encode hrow happ)⟩
    | dec => exact ⟨_, exec_of_decodeDec_eq_table (hdec hrow) (decodeDec_encode hrow hwf happ)⟩
  · have hnot (hwf : i.wellFormed = true) : i.appliesIn s = false :=
      Bool.eq_false_of_not_eq_true fun happ => happlies ⟨hwf, happ⟩
    cases hrow : i.row.engine with
    | enc => exact exec_refused_of_encRow hrow (henc hrow) (hnot (wellFormed_of_encRow hrow))
    | dec => exact exec_refused_of_decRow hrow (hdec hrow) hnot

/-- Settles O47: ENC's edge answers a next state, which leaves DEC in its invariant, so DEC's edge does too. -/
theorem invNeverStops : Obligations.InvNeverStops := by
  rintro s ⟨-, henc, hdec⟩
  obtain ⟨m, hencEdge⟩ := encEdge_total (s := s.advance) henc s.pinsNow.enc
  obtain ⟨hwidth, hsame⟩ := encEdge_frame hencEdge
  obtain ⟨t, hdecEdge⟩ := decEdge_total (s := m) (by rw [hwidth, hsame]; exact hdec) s.pinsNow.dec
  exact ⟨t, bothEdges_eq_next_iff.mpr ⟨m, hencEdge, hdecEdge⟩⟩

/-! ### Rule by rule -/

/-- Settles O8; `active = 0` in `Idle` is part of the invariant (R26). -/
theorem idleByteOpensLiteral : Obligations.IdleByteOpensLiteral := by
  intro b s hcore hpend
  refine ⟨decodeEnc_of_applies rfl (by simp [Instr.appliesIn, hcore]) rfl, exec_eIdleByte hpend b hcore, ?_⟩
  rintro ⟨-, ⟨-, hidle, -⟩, -⟩
  exact hidle.mpr hcore

/-- Settles O9: the control byte of 127 literal bytes is 0x81. -/
theorem litCapFlushes : Obligations.LitCapFlushes := by
  intro b buf s hcore hfull hpend
  refine ⟨decodeEnc_of_applies rfl (by simp [Instr.appliesIn, hcore, hfull]) rfl, ?_⟩
  simpa [litTokens, hfull] using exec_eLitCap hpend b hcore ((litFull_iff buf).mpr hfull)

/-- Settles O10: what stands before the repeated byte is empty exactly at length 1. -/
theorem litMatchStartsRun : Obligations.LitMatchStartsRun := by
  intro b buf s hcore hlen hlast hpend
  have hpos : 1 ≤ buf.length := List.length_pos_of_mem (List.mem_of_getLast? hlast)
  have hempty : buf.dropLast = [] ↔ buf.length = 1 := by
    rw [← List.length_eq_zero_iff, List.length_dropLast]
    omega
  refine ⟨decodeEnc_of_applies rfl (by simp [Instr.appliesIn, hcore, hpos, hlen, hlast]) rfl, ?_⟩
  simpa only [hempty, litTokens, List.length_dropLast] using
    exec_eLitMatch hpend b hcore ((litOpen_iff buf).mpr ⟨hpos, hlen⟩) ((matchesLast_iff b buf).mpr hlast)

/-- Settles O11: a byte other than the last one is no match, and the row applies below the cap (R107). -/
theorem litAppendGrows : Obligations.LitAppendGrows := by
  intro b l buf s hcore hlen hlast hne hpend
  have hpos : 1 ≤ buf.length := List.length_pos_of_mem (List.mem_of_getLast? hlast)
  have hother : buf.getLast? ≠ some b := by simpa [hlast] using hne.symm
  refine ⟨decodeEnc_of_applies rfl (by simp [Instr.appliesIn, hcore, hpos, hlen, hother]) rfl, ?_⟩
  exact exec_eLitAppend hpend b hcore ((litOpen_iff buf).mpr ⟨hpos, hlen⟩)
    (Bool.eq_false_of_not_eq_true (mt (matchesLast_iff b buf).mp hother))

/-- Settles O12: below the cap the run's own byte extends it (R108). -/
theorem runExtendCounts : Obligations.RunExtendCounts := by
  intro v n s hcore hlow hbelow hpend
  exact ⟨decodeEnc_of_applies rfl (by simp [Instr.appliesIn, hcore, hlow, hbelow]) rfl,
    exec_eRunExtend hpend v hcore ((runOpen_iff n).mpr ⟨hlow, hbelow⟩), hbelow⟩

/-- Settles O13: 129 and 128 copies are a full run, then a run of two and a literal of one. -/
theorem runCapFlushes : Obligations.RunCapFlushes := by
  refine ⟨fun v s hcore hpend => ?rule, fun v => ⟨?copies129, ?copies128⟩⟩
  case rule =>
    exact ⟨decodeEnc_of_applies rfl (by simp [Instr.appliesIn, hcore]) rfl, exec_eRunCap hpend v hcore rfl⟩
  case copies129 =>
    rw [show 129 = 127 + 2 from rfl, List.replicate_add]
    exact encBytes_full_run_then (r := .run 2 v) rfl
  case copies128 =>
    rw [show 128 = 127 + 1 from rfl, List.replicate_add]
    exact encBytes_full_run_then (r := .lit [v]) rfl

/-- Settles O14: at every legal count another byte breaks the run (R110). -/
theorem runBreakFlushes : Obligations.RunBreakFlushes := by
  intro b v n s hcore hlow hhigh hne hpend
  exact ⟨decodeEnc_of_applies rfl (by simp [Instr.appliesIn, hcore, hlow, hhigh, hne]) rfl,
    exec_eRunBreak hpend hcore ((runLegal_iff n).mpr ⟨hlow, hhigh⟩) hne⟩

/-- Settles O15: in `Idle` the invariant has no invocation open, so the framing clears both counters (R181). -/
theorem endIdleTerminates : Obligations.EndIdleTerminates := by
  intro d s hcore hpend
  refine ⟨decodeEnc_of_applies rfl (by simp [Instr.appliesIn, hcore]) (tokenOf_kind_one d).symm,
    exec_eEndIdle hpend hcore, ?_⟩
  rintro ⟨-, ⟨-, hidle, -⟩, -⟩
  simp [acceptedEnc, hidle.mpr hcore]

/-- Settles O16: every word of kind 1 is `End`, whatever its data (R83, R112). -/
theorem endLitFlushes : Obligations.EndLitFlushes := by
  intro d buf s hcore hlow hhigh hpend
  exact ⟨decodeEnc_of_applies rfl (by simp [Instr.appliesIn, hcore, hlow, hhigh]) (tokenOf_kind_one d).symm,
    exec_eEndLit hpend hcore ((litLegal_iff buf).mpr ⟨hlow, hhigh⟩)⟩

/-- Settles O17: every word of kind 1 is `End`, whatever its data (R83, R113). -/
theorem endRunFlushes : Obligations.EndRunFlushes := by
  intro d v n s hcore hlow hhigh hpend
  exact ⟨decodeEnc_of_applies rfl (by simp [Instr.appliesIn, hcore, hlow, hhigh]) (tokenOf_kind_one d).symm,
    exec_eEndRun hpend hcore ((runLegal_iff n).mpr ⟨hlow, hhigh⟩)⟩

/-! ### Streams -/

/-- Settles O52: the bytes are the expansion of a canonical list, of which ENC has emitted all records but the last. -/
theorem heldBytesComplete : Obligations.HeldBytesComplete := by
  intro xs
  obtain ⟨rs, hrs, rfl⟩ := hasCanonicalRecords xs
  obtain rfl | ⟨rs, r, rfl⟩ := rs.eq_nil_or_concat'
  · exact ⟨[], by simp, rfl, rfl, Nat.zero_le _⟩
  obtain ⟨⟨hemitted, -⟩, hr, -⟩ := canonicalRecords_concat_iff.mp hrs
  rw [runTable_of_canonicalRecords hrs, held_core]
  exact ⟨rs, hemitted, rfl, by simp, length_expand_le hr⟩

/-- Settles O57: every input is the expansion of a canonical list, and ENC of such an expansion is the list's bytes. -/
theorem canonicalStreams : Obligations.CanonicalStreams := by
  intro y
  constructor
  · rintro ⟨x, rfl⟩
    obtain ⟨rs, hrs, rfl⟩ := hasCanonicalRecords x
    exact ⟨rs, hrs.1, hrs.2, encBytes_of_canonicalRecords hrs⟩
  · rintro ⟨rs, hemit, hadj, rfl⟩
    exact ⟨recordExpansion rs, (encBytes_of_canonicalRecords ⟨hemit, hadj⟩).symm⟩

end Sys2Proof
end

section
/-! SUPPORT. DEC's table on the bytes of one record, which it expands (R141, R142, R144, R145), on what raises an error
(R143, R148, R149), and on what `ENC` delivers (R160). -/

namespace Sys2Proof

open Machine

/-- DEC's decoder answers a row that applies for every word with the row's token (R87). -/
theorem decodeDec_of_applies {s : State} {i : Instr} {tw : TokenWord} (hrow : i.row.engine = .dec)
    (hwf : i.wellFormed = true) (happ : i.appliesIn s = true) (htok : tokenOf (encode i) = tokenOf tw) :
    decodeDec s.dec.core tw = .ok i :=
  decodeAt_eq_ok_iff (id := .dec).mpr ⟨hrow, hwf, happ, htok⟩

/-! ### Control bytes -/

/-- The control byte of a run announces its value byte (R71, R141). -/
theorem decTable_ctrl_run {n : Nat} (hlow : 2 ≤ n) (hhigh : n ≤ 127) :
    decTable .ctrl (.byte (BitVec.ofNat 8 n)) = (.runVal n, []) := by
  have hc : (BitVec.ofNat 8 n).toNat = n := Nat.mod_eq_of_lt (by omega)
  simp only [decTable, hc, if_pos (And.intro hlow hhigh)]

/-- The control byte of a literal announces its payload (R72, R142). -/
theorem decTable_ctrl_lit {len : Nat} (hlow : 1 ≤ len) (hhigh : len ≤ 127) :
    decTable .ctrl (.byte (BitVec.ofNat 8 (256 - len))) = (.litPay len, []) := by
  have hc : (BitVec.ofNat 8 (256 - len)).toNat = 256 - len := Nat.mod_eq_of_lt (by omega)
  have hnotRun : ¬ (2 ≤ 256 - len ∧ 256 - len ≤ 127) := by omega
  have hlit : 129 ≤ 256 - len := by omega
  have hlen : len ≤ 256 := by omega
  simp only [decTable, hc, if_neg hnotRun, if_pos hlit, Nat.sub_sub_self hlen]

/-- An invalid control byte raises its error (R143). -/
theorem decTable_ctrl_invalid {c : Byte} (hc : c = 0x00#8 ∨ c = 0x01#8 ∨ c = 0x80#8) :
    decTable .ctrl (.byte c) = (.drain, [.error .invalidControlByte]) := by
  obtain rfl | rfl | rfl := hc <;> rfl

/-! ### Bytes of a payload, and bytes after an error -/

/-- A payload passes through while more of it is expected (R145). -/
theorem runTable_litPay_short {r : Nat} (p : List Byte) (h : p.length < r) :
    runTable decTable (.litPay r) (p.map .byte) = (.litPay (r - p.length), p.map .byte) := by
  induction p generalizing r with
  | nil => rfl
  | cons b p ih =>
    rw [List.length_cons] at h
    have hmore : r ≠ 1 := by omega
    have hstep : decTable (.litPay r) (.byte b) = (.litPay (r - 1), [.byte b]) := by simp [decTable, hmore]
    simp [runTable, hstep, ih (show p.length < r - 1 by omega), Nat.sub_sub, Nat.add_comm]

/-- The last byte of a payload brings DEC back to `Ctrl` (R145). -/
theorem runTable_litPay_whole {p : List Byte} (hne : p ≠ []) :
    runTable decTable (.litPay p.length) (p.map .byte) = (.ctrl, p.map .byte) := by
  obtain rfl | ⟨q, b, rfl⟩ := p.eq_nil_or_concat'
  · exact absurd rfl hne
  · have hshort := runTable_litPay_short (r := (q ++ [b]).length) q (by simp)
    rw [List.map_append, runTable_append, hshort]
    simp [runTable, decTable]

/-- Bytes in `Drain` give nothing (R146). -/
theorem runTable_drain (ys : List Byte) : runTable decTable .drain (ys.map .byte) = (.drain, []) := by
  induction ys with
  | nil => rfl
  | cons y ys ih => simp [runTable, decTable, ih]

/-- From `Drain` the rest of the invocation gives nothing and ends in `Ctrl` (R146, R150). -/
theorem runTable_drain_invocation (ys : List Byte) : runTable decTable .drain (invocation ys) = (.ctrl, []) := by
  rw [invocation, runTable_append, runTable_drain]
  rfl

/-! ### Records -/

/-- DEC in `Ctrl` expands a legal record and is in `Ctrl` again. -/
theorem runTable_ctrl_record {r : Record} (hr : r.legal = true) :
    runTable decTable .ctrl (r.bytes.map .byte) = (.ctrl, r.expand.map .byte) := by
  cases r with
  | run n v =>
    obtain ⟨hlow, hhigh⟩ := of_decide_eq_true hr
    have hvalue : decTable (.runVal n) (.byte v) = (.ctrl, (List.replicate n v).map .byte) := by
      rw [List.map_replicate]
      rfl
    simp [Record.bytes, Record.expand, runTable, decTable_ctrl_run hlow hhigh, hvalue]
  | lit p =>
    obtain ⟨hlow, hhigh⟩ := of_decide_eq_true hr
    have hpayload := runTable_litPay_whole (List.ne_nil_of_length_pos hlow)
    simp [Record.bytes, Record.expand, runTable, decTable_ctrl_lit hlow hhigh, hpayload]

/-- DEC in `Ctrl` expands legal records one after the other. -/
theorem runTable_ctrl_records {rs : List Record} (hrs : ∀ r ∈ rs, r.legal = true) :
    runTable decTable .ctrl ((recordBytes rs).map .byte) = (.ctrl, (recordExpansion rs).map .byte) := by
  induction rs with
  | nil => rfl
  | cons r rs ih =>
    obtain ⟨hr, hrest⟩ := List.forall_mem_cons.mp hrs
    simp only [recordBytes, recordExpansion, List.flatMap_cons, List.map_append, runTable_append] at ih ⊢
    rw [runTable_ctrl_record hr, ih hrest]

/-- What follows legal records is decoded as on its own, after their expansions (R153, R161). -/
theorem decOutputs_records_append {rs : List Record} (hrs : ∀ r ∈ rs, r.legal = true) (ys : List Byte) :
    decOutputs (recordBytes rs ++ ys) = (recordExpansion rs).map .byte ++ decOutputs ys := by
  simp only [decOutputs, invocation, List.map_append, List.append_assoc]
  rw [runTable_append, runTable_ctrl_records hrs]

/-- Legal records alone give their expansions and `End` (R161). -/
theorem decOutputs_records {rs : List Record} (hrs : ∀ r ∈ rs, r.legal = true) :
    decOutputs (recordBytes rs) = (recordExpansion rs).map .byte ++ [.endTok] := by
  rw [← List.append_nil (recordBytes rs), decOutputs_records_append hrs]
  rfl

/-- Decoding goes on from what its first control byte leaves. -/
theorem decOutputs_cons (c : Byte) (ys : List Byte) : decOutputs (c :: ys) =
    (decTable .ctrl (.byte c)).2 ++ (runTable decTable (decTable .ctrl (.byte c)).1 (invocation ys)).2 := rfl

/-- An invalid control byte gives its error, and what follows it nothing (R143, R153). -/
theorem decOutputs_invalid {c : Byte} (junk : List Byte) (hc : c = 0x00#8 ∨ c = 0x01#8 ∨ c = 0x80#8) :
    decOutputs (c :: junk) = [.error .invalidControlByte] := by
  rw [decOutputs_cons, decTable_ctrl_invalid hc, runTable_drain_invocation, List.append_nil]

/-- A run without its value byte gives the error alone (R148, R153). -/
theorem decOutputs_run_truncated {n : Nat} (hlow : 2 ≤ n) (hhigh : n ≤ 127) :
    decOutputs [BitVec.ofNat 8 n] = [.error .truncatedRecord] := by
  rw [decOutputs_cons, decTable_ctrl_run hlow hhigh]
  rfl

/-- A literal short of its payload gives the bytes received, then the error (R149, R153). -/
theorem decOutputs_lit_truncated {len : Nat} {p : List Byte} (hshort : p.length < len) (hhigh : len ≤ 127) :
    decOutputs (BitVec.ofNat 8 (256 - len) :: p) = p.map .byte ++ [.error .truncatedRecord] := by
  rw [decOutputs_cons, decTable_ctrl_lit (by omega) hhigh, invocation, runTable_append,
    runTable_litPay_short p hshort]
  rfl

/-! ### What ENC delivers -/

theorem legal_of_emittable {r : Record} (hr : r.emittable = true) : r.legal = true := by
  cases r with
  | run n v => exact hr
  | lit p => exact (Bool.and_eq_true_iff.mp hr).1

/-- ENC delivers the bytes `ENC(xs)`, then `End` (R81, R190). -/
theorem encOutputs_eq_encBytes (xs : List Byte) : encOutputs xs = (encBytes xs).map .byte ++ [.endTok] := by
  obtain ⟨rs, hrs, rfl⟩ := hasCanonicalRecords xs
  rw [encOutputs_of_canonicalRecords hrs, encBytes_of_canonicalRecords hrs]

/-- DEC takes back what ENC made: its bytes are the records of which the input is the expansion (R160). -/
theorem decOutputs_encBytes (xs : List Byte) : decOutputs (encBytes xs) = xs.map .byte ++ [.endTok] := by
  obtain ⟨rs, hrs, rfl⟩ := hasCanonicalRecords xs
  rw [encBytes_of_canonicalRecords hrs]
  exact decOutputs_records fun r hr => legal_of_emittable (hrs.1 r hr)

/-! ### One invocation since Reset -/

/-- A token after `End` begins an invocation, any other continues it (R183). -/
theorem lastInvocation_concat (ts : List InTok) (t : InTok) : lastInvocation (ts ++ [t]) =
    if (lastInvocation ts).getLast? = some .endTok then [t] else lastInvocation ts ++ [t] :=
  List.foldl_concat ..

theorem getLast?_map_byte_ne_endTok (xs : List Byte) : (xs.map InTok.byte).getLast? ≠ some .endTok := by
  simp [List.getLast?_map]

/-- Bytes alone are one invocation. -/
theorem lastInvocation_map_byte (xs : List Byte) : lastInvocation (xs.map .byte) = xs.map .byte := by
  induction xs using List.reverseRecOn with
  | nil => rfl
  | append_singleton xs x ih =>
    rw [List.map_append, List.map_singleton, lastInvocation_concat, ih, if_neg (getLast?_map_byte_ne_endTok xs)]

theorem lastInvocation_invocation (xs : List Byte) : lastInvocation (invocation xs) = invocation xs := by
  rw [invocation, lastInvocation_concat, lastInvocation_map_byte, if_neg (getLast?_map_byte_ne_endTok xs)]

/-- When ENC has accepted one invocation since Reset and nothing is pending, it has delivered the invocation's outputs,
and `result` is theirs (R186, R188). -/
theorem enc_of_one_invocation {s : State} {xs : List Byte} (hinv : EncTraceInv s)
    (hacc : s.encTrace.accepted = invocation xs) (hpend : s.enc.pend = []) :
    s.encTrace.delivered = encOutputs xs ∧ s.enc.result = encResultOf (encOutputs xs) := by
  obtain ⟨hrun, -, -, -, -, hresult, -⟩ := hinv
  rw [hacc, hpend, List.append_nil] at hrun
  rw [hacc, lastInvocation_invocation] at hresult
  exact ⟨(congrArg Prod.snd hrun).symm, hresult hpend⟩

/-- When DEC has accepted one invocation since Reset and nothing is pending, it has delivered the invocation's outputs,
and `result` is theirs (R186, R188). -/
theorem dec_of_one_invocation {s : State} {ys : List Byte} (hinv : DecTraceInv s)
    (hacc : s.decTrace.accepted = invocation ys) (hpend : s.dec.pend = []) :
    s.decTrace.delivered = decOutputs ys ∧ s.dec.result = decResultOf (decOutputs ys) := by
  obtain ⟨hrun, -, -, -, -, hresult, -⟩ := hinv
  rw [hacc, hpend, List.append_nil] at hrun
  rw [hacc, lastInvocation_invocation] at hresult
  exact ⟨(congrArg Prod.snd hrun).symm, hresult hpend⟩

end Sys2Proof
end

section
/-! PROOFS. The statements of 41_decoder.md: DEC's rules (R141 to R151), what it makes of records and of erring input
(R153, R161), and that it inverts ENC (R160). -/

namespace Sys2Proof

open Machine

/-! ### All rows at once -/

/-- Settles O7: a legal core decodes every word, and what decoding answers is the only row that applies. -/
theorem decExactlyOneRow : Obligations.DecExactlyOneRow := by
  intro s tw hcore
  obtain ⟨i, hdec⟩ := decodeDec_total hcore tw
  exact ⟨i, hdec, row_unique_of_decodeAt (id := .dec) hdec⟩

/-- Settles O29: row by row, in `exec_of_decodeDec_eq_table`. -/
theorem decRunsItsTable : Obligations.DecRunsItsTable := fun _ _ _ => exec_of_decodeDec_eq_table

/-! ### Rule by rule -/

/-- Settles O18: the control byte's range is the row's (R87, R141). -/
theorem ctrlRunRead : Obligations.CtrlRunRead := by
  intro c s hcore hlow hhigh hpend
  exact ⟨decodeDec_of_applies rfl (decide_eq_true ⟨hlow, hhigh⟩) (decide_eq_true hcore) rfl,
    exec_dCtrlRun hpend hcore ⟨hlow, hhigh⟩⟩

/-- Settles O19: the control byte's range is the row's (R87, R142), and a byte from 0x81 is at most 0xFF. -/
theorem ctrlLitRead : Obligations.CtrlLitRead := by
  intro c s hcore hlow hpend
  have hbyte : c.toNat < 256 := c.isLt
  exact ⟨decodeDec_of_applies rfl (decide_eq_true ⟨hlow, by omega⟩) (decide_eq_true hcore) rfl,
    exec_dCtrlLit hpend hcore hlow, by omega, by omega⟩

/-- Settles O20: the three rows share one rule, and in `Drain` nothing is emitted until `End`. -/
theorem invalidControlRaises : Obligations.InvalidControlRaises := by
  refine ⟨fun s hcore hpend => ?_, runTable_drain_invocation⟩
  refine ⟨⟨?_, acceptDec_invalidControl hpend _ hcore⟩, ⟨?_, acceptDec_invalidControl hpend _ hcore⟩,
    ⟨?_, acceptDec_invalidControl hpend _ hcore⟩⟩ <;>
  exact decodeDec_of_applies rfl rfl (decide_eq_true hcore) rfl

/-- Settles O21: at every legal count the value byte emits the run (R144). -/
theorem runValueEmitsRun : Obligations.RunValueEmitsRun := by
  intro v n s hcore hlow hhigh hpend
  exact ⟨decodeDec_of_applies rfl rfl (by simp [Instr.appliesIn, hcore, hlow, hhigh]) rfl,
    exec_dRunvalByte hpend v hcore ((runLegal_iff n).mpr ⟨hlow, hhigh⟩)⟩

/-- Settles O22: at every legal remainder a payload byte passes (R145). -/
theorem litPayloadPasses : Obligations.LitPayloadPasses := by
  intro b r s hcore hlow hhigh hpend
  exact ⟨decodeDec_of_applies rfl rfl (by simp [Instr.appliesIn, hcore, hlow, hhigh]) rfl,
    exec_dLitpayByte hpend b hcore ((payLegal_iff r).mpr ⟨hlow, hhigh⟩)⟩

/-- Settles O23: every byte is an operand of the `Drain` row (R146). -/
theorem drainDiscards : Obligations.DrainDiscards := by
  intro b s hcore hpend
  exact ⟨decodeDec_of_applies rfl rfl (decide_eq_true hcore) rfl, exec_dDrainByte hpend b hcore⟩

/-- Settles O24: every word of kind 1 is `End`, whatever its data (R83, R147). -/
theorem endCtrlTerminates : Obligations.EndCtrlTerminates := by
  intro d s hcore hpend
  exact ⟨decodeDec_of_applies rfl rfl (decide_eq_true hcore) (tokenOf_kind_one d).symm, exec_dEndCtrl hpend hcore⟩

/-- Settles O25: every word of kind 1 is `End`, whatever its data (R83, R148). -/
theorem endRunvalRaises : Obligations.EndRunvalRaises := by
  intro d n s hcore hlow hhigh hpend
  exact ⟨decodeDec_of_applies rfl rfl (by simp [Instr.appliesIn, hcore, hlow, hhigh]) (tokenOf_kind_one d).symm,
    exec_dEndRunval hpend hcore ((runLegal_iff n).mpr ⟨hlow, hhigh⟩)⟩

/-- Settles O26: every word of kind 1 is `End`, whatever its data (R83, R149). -/
theorem endLitpayRaises : Obligations.EndLitpayRaises := by
  intro d r s hcore hlow hhigh hpend
  exact ⟨decodeDec_of_applies rfl rfl (by simp [Instr.appliesIn, hcore, hlow, hhigh]) (tokenOf_kind_one d).symm,
    exec_dEndLitpay hpend hcore ((payLegal_iff r).mpr ⟨hlow, hhigh⟩)⟩

/-- Settles O27: every word of kind 1 is `End`, whatever its data (R83, R150). -/
theorem endDrainLeaves : Obligations.EndDrainLeaves := by
  intro d s hcore hpend
  exact ⟨decodeDec_of_applies rfl rfl (decide_eq_true hcore) (tokenOf_kind_one d).symm, exec_dEndDrain hpend hcore⟩

/-! ### Streams -/

/-- Settles O54: DEC is in `Ctrl` after each record, and there `End` terminates the stream. -/
theorem decAcceptsLegalRecords : Obligations.DecAcceptsLegalRecords := fun _ => decOutputs_records

/-- Settles O55: each of the three errors on its own, after the expansions of the records. -/
theorem decErrorOutputs : Obligations.DecErrorOutputs := by
  refine fun rs hrs => ⟨fun c junk hc => ?invalid, fun n hlow hhigh => ?run, fun len p hshort hhigh => ?lit⟩
  case invalid => rw [decOutputs_records_append hrs, decOutputs_invalid junk hc]
  case run => rw [decOutputs_records_append hrs, decOutputs_run_truncated hlow hhigh]
  case lit =>
    rw [decOutputs_records_append hrs, decOutputs_lit_truncated hshort hhigh, List.map_append, List.append_assoc]

/-- Settles O56: ENC's bytes are legal records with the input as expansion; R123's counterexample is computed. -/
theorem roundTrip : Obligations.RoundTrip := by
  refine ⟨decOutputs_encBytes, ?_, by decide, by decide⟩
  rintro _ ⟨x, rfl⟩
  have hback : decBytes (encBytes x) = x := by simp [decBytes, decOutputs_encBytes, bytesOf]
  rw [hback]

/-- Settles O60: each engine has delivered the outputs of its one invocation, and DEC's are those of `ENC(x)`. -/
theorem machineRoundTrip : Obligations.MachineRoundTrip := by
  intro s x hencInv hdecInv hencAcc hencPend hdecAcc hdecPend
  obtain ⟨hencOut, hencResult⟩ := enc_of_one_invocation hencInv hencAcc hencPend
  rw [encOutputs_eq_encBytes] at hencOut hencResult
  have hbytes : bytesOf s.encTrace.delivered = encBytes x := by simp [hencOut, bytesOf]
  rw [hbytes] at hdecAcc
  obtain ⟨hdecOut, hdecResult⟩ := dec_of_one_invocation hdecInv hdecAcc hdecPend
  rw [decOutputs_encBytes] at hdecOut hdecResult
  exact ⟨hencOut, hdecOut, by simp [hencResult, encResultOf], by simp [hdecResult, decResultOf]⟩

end Sys2Proof
end

section
/-! SUPPORT. What enables the two transfers at an edge (R180, R184), and with that the edge as one of its actions (R187)
and a step at which one of the engines is known. -/

namespace Sys2Proof.Machine

section Enabling
variable {κ ρ : Type} {p : Pins} {e : Engine κ ρ}

/-- A token is accepted when the host offers one, nothing is pending and there is no `rst` (R180). -/
theorem acceptEnabled_iff : acceptEnabled p e = true ↔ p.rst = false ∧ p.inValid = true ∧ e.pend = [] := by
  simp only [acceptEnabled, inReady_eq_decide, Bool.and_eq_true, Bool.not_eq_true', decide_eq_true_iff]
  tauto

/-- A token is delivered when the sink is ready, something is pending and there is no `rst` (R184). -/
theorem deliverEnabled_iff : deliverEnabled p e = true ↔ p.rst = false ∧ p.outReady = true ∧ e.pend ≠ [] := by
  simp only [deliverEnabled, outValid_eq_decide, Bool.and_eq_true, Bool.not_eq_true', decide_eq_true_iff]
  tauto

/-- One transfer needs `pend` empty, the other not (R187). -/
theorem not_acceptEnabled_and_deliverEnabled : ¬ (acceptEnabled p e = true ∧ deliverEnabled p e = true) := by
  rw [acceptEnabled_iff, deliverEnabled_iff]
  rintro ⟨⟨-, -, hpend⟩, -, -, hne⟩
  exact hne hpend

theorem acceptEnabled_of_pending (hpend : e.pend ≠ []) : acceptEnabled p e = false :=
  Bool.eq_false_of_not_eq_true fun h => hpend (acceptEnabled_iff.mp h).2.2

theorem acceptEnabled_of_no_offer (hvalid : p.inValid = false) : acceptEnabled p e = false := by
  simp [acceptEnabled, hvalid]

theorem deliverEnabled_of_not_ready (hready : p.outReady = false) : deliverEnabled p e = false := by
  simp [deliverEnabled, hready]

end Enabling

section Edges
variable {p : Pins} {s : State} (hrst : p.rst = false)
include hrst

/-- With no transfer enabled an edge at ENC does nothing (R187). -/
theorem encEdge_of_nothing_enabled (haccept : acceptEnabled p s.enc = false)
    (hdeliver : deliverEnabled p s.enc = false) : encEdge p s = .next s := by
  simp [encEdge, hrst, haccept, hdeliver]

/-- With no transfer enabled an edge at DEC does nothing (R187). -/
theorem decEdge_of_nothing_enabled (haccept : acceptEnabled p s.dec = false)
    (hdeliver : deliverEnabled p s.dec = false) : decEdge p s = .next s := by
  simp [decEdge, hrst, haccept, hdeliver]

/-- Offered a token with nothing pending and no `rst`, ENC runs the row it decodes (R180, R187). -/
theorem encEdge_of_offer {i : Instr} (hvalid : p.inValid = true) (hpend : s.enc.pend = [])
    (hdec : decodeEnc s.enc.core p.tokenWord = .ok i) : encEdge p s = exec i s := by
  simp [encEdge, hrst, acceptEnabled_iff.mpr ⟨hrst, hvalid, hpend⟩, hdec]

/-- With something pending and the sink ready an edge at ENC is `Deliver` (R184, R187). -/
theorem encEdge_of_take (hready : p.outReady = true) (hpend : s.enc.pend ≠ []) : encEdge p s = deliverEnc s := by
  simp [encEdge, hrst, acceptEnabled_of_pending hpend, deliverEnabled_iff.mpr ⟨hrst, hready, hpend⟩]

/-- With something pending and the sink ready an edge at DEC is `Deliver` (R184, R187). -/
theorem decEdge_of_take (hready : p.outReady = true) (hpend : s.dec.pend ≠ []) : decEdge p s = deliverDec s := by
  simp [decEdge, hrst, acceptEnabled_of_pending hpend, deliverEnabled_iff.mpr ⟨hrst, hready, hpend⟩]

end Edges

/-! ### The step from one engine's part of the edge -/

/-- Once ENC's part is done the step is DEC's part. -/
theorem step_of_encEdge {s m : State} (henc : encEdge s.pinsNow.enc s.advance = .next m) :
    step s = decEdge s.pinsNow.dec m := by
  simp [step, bothEdges, henc]

/-- The step is ENC's part, then DEC's part `f`, which may use that DEC is as it was before the edge (R61). -/
theorem step_of_decEdge {s : State} {f : State → Host.Outcome State Fault Refusal}
    (hdec : ∀ m : State, m.dec = s.dec → decEdge s.pinsNow.dec m = f m) :
    step s = match encEdge s.pinsNow.enc s.advance with
      | .next m => f m
      | .fault r => .fault r
      | .refused r => .refused r := by
  simp only [step, bothEdges]
  cases henc : encEdge s.pinsNow.enc s.advance with
  | next m => exact hdec m (encEdge_frame henc).2
  | fault | refused => rfl

/-- Where DEC does nothing the step is ENC's part. -/
theorem step_of_dec_idle {s : State} (hdec : ∀ m : State, m.dec = s.dec → decEdge s.pinsNow.dec m = .next m) :
    step s = encEdge s.pinsNow.enc s.advance := by
  rw [step_of_decEdge hdec]
  cases encEdge s.pinsNow.enc s.advance <;> rfl

/-- `Deliver` on ENC of a token other than an `Error` (R184 to R186). -/
theorem deliverEnc_of_pend {s : State} {o : OutTok} {rest : List OutTok} (hpend : s.enc.pend = o :: rest)
    (herror : isError o = false) : deliverEnc s = .next (s.setEnc
      { s.enc with
        pend := rest
        outCount := if isByte o then (s.enc.outCount + 1) % 2 ^ s.cntW else s.enc.outCount
        result := if o = .endTok then .ok else s.enc.result } (s.encTrace.deliver o)) := by
  cases o with
  | byte | endTok => simp [deliverEnc, hpend, encResultAfter, countOut, countUp, isByte]
  | error => cases herror

/-- ENC has no `Error` token to deliver (R204; log entry 7). -/
theorem deliverEnc_of_error {s : State} {o : OutTok} {rest : List OutTok} (hpend : s.enc.pend = o :: rest)
    (herror : isError o = true) : deliverEnc s = .fault .encErrorToken := by
  cases o with
  | byte | endTok => cases herror
  | error => simp [deliverEnc, hpend, encResultAfter]

/-- `Deliver` on DEC (R184 to R186). -/
theorem deliverDec_of_pend {s : State} {o : OutTok} {rest : List OutTok} (hpend : s.dec.pend = o :: rest) :
    deliverDec s = .next (s.setDec
      { s.dec with
        pend := rest
        outCount := if isByte o then (s.dec.outCount + 1) % 2 ^ s.cntW else s.dec.outCount
        result := decResultAfter o s.dec.result } (s.decTrace.deliver o)) := by
  cases o <;> simp [deliverDec, hpend, countOut, countUp, isByte]

end Sys2Proof.Machine
end

section
/-! SUPPORT. The last invocation of a stream (R26, R183) when one more token is accepted, and what a transition table has
emitted for it. -/

namespace Sys2Proof

open Machine

/-! ### The last invocation -/

/-- The token accepted last settles whether an invocation is open (R183). -/
theorem openInvocation_concat (ts : List InTok) (t : InTok) :
    openInvocation (ts ++ [t]) = decide (t ≠ .endTok) := by
  simp [openInvocation]

theorem getLast?_lastInvocation (ts : List InTok) : (lastInvocation ts).getLast? = ts.getLast? := by
  obtain rfl | ⟨ts, t, rfl⟩ := ts.eq_nil_or_concat'
  · rfl
  · rw [lastInvocation_concat]
    split_ifs <;> simp

/-- A token continues an open invocation and else is the first of one (R183). -/
theorem lastInvocation_concat_eq (ts : List InTok) (t : InTok) :
    lastInvocation (ts ++ [t]) = (if openInvocation ts then lastInvocation ts else []) ++ [t] := by
  rw [lastInvocation_concat, getLast?_lastInvocation]
  obtain rfl | ⟨ts, u, rfl⟩ := ts.eq_nil_or_concat'
  · rfl
  · by_cases hend : u = .endTok <;> simp [openInvocation_concat, hend]

theorem countBytes_append (ts us : List InTok) : countBytes (ts ++ us) = countBytes ts + countBytes us := by
  induction ts with
  | nil => simp [countBytes]
  | cons t ts ih => cases t <;> simp [countBytes, ih, Nat.add_right_comm]

/-! ### A table that works in invocations -/

/-- Bytes before tokens that are bytes but for the last one. -/
theorem all_isByte_dropLast_append {os us : List OutTok} (hos : os.all isByte = true)
    (hus : us.dropLast.all isByte = true) : (os ++ us).dropLast.all isByte = true := by
  by_cases hempty : us = []
  · rw [hempty, List.append_nil]
    exact all_isByte_dropLast hos
  · rw [List.dropLast_append_of_ne_nil hempty, List.all_append, hos, hus]
    rfl

section Table
variable {κ ρ : Type}

/-- In core `k` no token makes the table emit. -/
def Silent (table : κ → InTok → κ × List OutTok) (k : κ) : Prop := ∀ t, (table k t).2 = []

/-- What both engines' tables and results have in common: `End` leads back to `start` (R183); a terminator comes last
among what a token emits, and one emitted before `End` leaves the table silent until `End` (R190); the result is that of
the last output, and `noResult` before a terminator (R186). -/
structure TableLaws (table : κ → InTok → κ × List OutTok) (start : κ) (resultOf : List OutTok → ρ) (noResult : ρ) :
    Prop where
  end_core : ∀ k, (table k .endTok).1 = start
  out_form : ∀ k t, (table k t).2.dropLast.all isByte = true
  byte_out : ∀ k b, (table k (.byte b)).2.all isByte = true ∨ Silent table (table k (.byte b)).1
  silent_byte : ∀ k b, Silent table k → Silent table (table k (.byte b)).1
  result_nil : resultOf [] = noResult
  result_byte : ∀ b, resultOf [.byte b] = noResult
  result_concat : ∀ os o, resultOf (os ++ [o]) = resultOf [o]

/-- What the table has emitted for the last invocation of `ts`. -/
def invocationOut (table : κ → InTok → κ × List OutTok) (start : κ) (ts : List InTok) : List OutTok :=
  (runTable table start (lastInvocation ts)).2

/-- What of it stays when the next token comes: all of it while the invocation is open. -/
def carriedOut (table : κ → InTok → κ × List OutTok) (start : κ) (ts : List InTok) : List OutTok :=
  if openInvocation ts then invocationOut table start ts else []

variable {table : κ → InTok → κ × List OutTok} {start : κ} {resultOf : List OutTok → ρ} {noResult : ρ}

/-- One more token, on the core and on all that was emitted (R60). -/
theorem runTable_concat (ts : List InTok) (t : InTok) : runTable table start (ts ++ [t]) =
    ((table (runTable table start ts).1 t).1, (runTable table start ts).2 ++ (table (runTable table start ts).1 t).2) := by
  simp [runTable_append, runTable]

section Laws
variable (laws : TableLaws table start resultOf noResult)
include laws

/-- Outside an invocation the core is the start (R183). -/
theorem core_of_not_open {ts : List InTok} (hclosed : openInvocation ts = false) :
    (runTable table start ts).1 = start := by
  obtain rfl | ⟨ts, t, rfl⟩ := ts.eq_nil_or_concat'
  · rfl
  · obtain rfl : t = .endTok := by simpa [openInvocation_concat] using hclosed
    rw [runTable_concat]
    exact laws.end_core _

/-- The core depends on the last invocation only. -/
theorem runTable_lastInvocation_core (ts : List InTok) :
    (runTable table start (lastInvocation ts)).1 = (runTable table start ts).1 := by
  induction ts using List.reverseRecOn with
  | nil => rfl
  | append_singleton ts t ih =>
    rw [lastInvocation_concat_eq, runTable_concat, runTable_concat]
    cases hopen : openInvocation ts with
    | true => simp [ih]
    | false => simp [runTable, core_of_not_open laws hopen]

/-- What one more token adds to the output of its invocation. -/
theorem invocationOut_concat (ts : List InTok) (t : InTok) : invocationOut table start (ts ++ [t]) =
    carriedOut table start ts ++ (table (runTable table start ts).1 t).2 := by
  rw [invocationOut, carriedOut, lastInvocation_concat_eq, runTable_concat]
  cases hopen : openInvocation ts with
  | true => simp [invocationOut, runTable_lastInvocation_core laws]
  | false => simp [runTable, core_of_not_open laws hopen]

/-- An invocation's output is bytes but for its last token; and what the next token finds of it is bytes only, unless
nothing more follows in the invocation (R190). -/
theorem invocationOut_form (ts : List InTok) : (invocationOut table start ts).dropLast.all isByte = true ∧
    ((carriedOut table start ts).all isByte = true ∨ Silent table (runTable table start ts).1) := by
  induction ts using List.reverseRecOn with
  | nil => exact ⟨rfl, .inl rfl⟩
  | append_singleton ts t ih =>
    obtain ⟨hform, hcarried⟩ := ih
    have hcarriedForm : (carriedOut table start ts).dropLast.all isByte = true := by
      unfold carriedOut
      split_ifs
      · exact hform
      · rfl
    rw [invocationOut_concat laws]
    constructor
    · obtain hbytes | hsilent := hcarried
      · exact all_isByte_dropLast_append hbytes (laws.out_form _ t)
      · rwa [hsilent t, List.append_nil]
    · cases t with
      | endTok => exact .inl (by simp [carriedOut, openInvocation_concat])
      | byte b =>
        have hopen : carriedOut table start (ts ++ [.byte b]) = invocationOut table start (ts ++ [.byte b]) :=
          if_pos (by simp [openInvocation_concat])
        rw [hopen, invocationOut_concat laws, runTable_concat]
        obtain hbytes | hsilent := hcarried
        · exact (laws.byte_out _ b).imp_left fun hout => by rw [List.all_append, hbytes, hout]; rfl
        · exact .inr (laws.silent_byte _ b hsilent)

/-- Without a terminator among the outputs there is no result (R186). -/
theorem result_of_all_isByte {os : List OutTok} (hbytes : os.all isByte = true) : resultOf os = noResult := by
  obtain rfl | ⟨os, o, rfl⟩ := os.eq_nil_or_concat'
  · exact laws.result_nil
  · rw [laws.result_concat]
    rw [List.all_append, Bool.and_eq_true] at hbytes
    cases o with
    | byte b => exact laws.result_byte b
    | endTok | error => exact absurd hbytes.2 (by simp [isByte])

/-- Nothing that a token emits comes after a terminator of its invocation (R190), so before it there is no result. -/
theorem result_of_carriedOut {ts : List InTok} {t : InTok} (hemits : (table (runTable table start ts).1 t).2 ≠ []) :
    resultOf (carriedOut table start ts) = noResult := by
  obtain hbytes | hsilent := (invocationOut_form laws ts).2
  · exact result_of_all_isByte laws hbytes
  · exact absurd (hsilent t) hemits

end Laws
end Table

/-! ### The two engines' tables -/

theorem encTable_laws : TableLaws encTable .idle encResultOf .none where
  end_core k := (encTable_core_idle_iff k .endTok).mpr rfl
  out_form k t := by
    cases t with
    | byte b =>
      obtain ⟨bs, hout, -⟩ := encTable_byte_out k b
      rw [hout]
      exact all_isByte_dropLast (all_isByte_map_byte bs)
    | endTok =>
      obtain ⟨bs, hout, -⟩ := encTable_end_out k
      rw [hout, List.dropLast_concat]
      exact all_isByte_map_byte bs
  byte_out k b := by
    obtain ⟨bs, hout, -⟩ := encTable_byte_out k b
    rw [hout]
    exact .inl (all_isByte_map_byte bs)
  silent_byte k b hsilent := by
    obtain ⟨bs, hout, -⟩ := encTable_end_out k
    exact absurd (hout.symm.trans (hsilent .endTok)) (by simp)
  result_nil := rfl
  result_byte _ := rfl
  result_concat os o := by simp [encResultOf]

/-- `Drain` is the core in which DEC emits nothing (R146, R150). -/
theorem silent_decTable_iff (k : DecCore) : Silent decTable k ↔ k = .drain := by
  constructor
  · intro hsilent
    cases k with
    | drain => rfl
    | ctrl | runVal | litPay => cases hsilent .endTok
  · rintro rfl (b | -) <;> rfl

theorem decTable_laws : TableLaws decTable .ctrl decResultOf .none where
  end_core := decTable_end_core
  out_form k t := by
    obtain ⟨⟨bs, hout⟩, -⟩ | ⟨⟨o, hout⟩, -⟩ := decTable_out k t
    · rw [hout]
      exact all_isByte_dropLast (all_isByte_map_byte bs)
    · rw [hout]
      rfl
  byte_out k b := by
    obtain ⟨⟨bs, hout⟩, -⟩ | ⟨-, hend | hdrain⟩ := decTable_out k (.byte b)
    · rw [hout]
      exact .inl (all_isByte_map_byte bs)
    · cases hend
    · exact .inr ((silent_decTable_iff _).mpr hdrain)
  silent_byte k b hsilent := by
    rw [silent_decTable_iff] at hsilent ⊢
    rw [hsilent]
    rfl
  result_nil := rfl
  result_byte _ := rfl
  result_concat os o := by simp [decResultOf]

end Sys2Proof
end

section
/-! SUPPORT. That an engine's record and its streams agree (R60, R188), for both engines at once: `Reset`, `Accept` and
`Deliver` keep it. -/

namespace Sys2Proof

open Machine

variable {κ ρ : Type} {table : κ → InTok → κ × List OutTok} {start : κ} {resultOf : List OutTok → ρ} {noResult : ρ}
  {w : Nat} {e : Engine κ ρ} {tr : Trace}

/-- `EncTraceInv` and `DecTraceInv` over one engine's table: its record `e` and streams `tr` agree. -/
def StreamsAgree (table : κ → InTok → κ × List OutTok) (start : κ) (resultOf : List OutTok → ρ) (noResult : ρ) (w : Nat)
    (e : Engine κ ρ) (tr : Trace) : Prop :=
  runTable table start tr.accepted = (e.core, tr.delivered ++ e.pend) ∧
    e.active = openInvocation tr.accepted ∧
    e.pend <:+ invocationOut table start tr.accepted ∧
    e.inCount = countBytes (lastInvocation tr.accepted) % 2 ^ w ∧
    (e.outCount + (bytesOf e.pend).length) % 2 ^ w =
      (bytesOf (invocationOut table start tr.accepted)).length % 2 ^ w ∧
    (e.pend = [] → e.result = resultOf (invocationOut table start tr.accepted)) ∧
    (e.pend ≠ [] → e.result = noResult)

theorem encTraceInv_iff {s : State} : EncTraceInv s ↔
    StreamsAgree encTable .idle encResultOf .none s.cntW s.enc s.encTrace := Iff.rfl

theorem decTraceInv_iff {s : State} : DecTraceInv s ↔
    StreamsAgree decTable .ctrl decResultOf .none s.cntW s.dec s.decTrace := Iff.rfl

/-- The record that `Accept(t)` leaves when the rule writes `core` and emits `emitted`: what `acceptedEnc` and
`acceptedDec` say of one engine. -/
def acceptedEngine (noResult : ρ) (w : Nat) (e : Engine κ ρ) (t : InTok) (next : κ × List OutTok) : Engine κ ρ :=
  { core := next.1
    active := decide (t ≠ .endTok)
    pend := next.2
    inCount := match t with
      | .byte _ => ((if e.active then e.inCount else 0) + 1) % 2 ^ w
      | .endTok => if e.active then e.inCount else 0
    outCount := if e.active then e.outCount else 0
    result := if e.active then e.result else noResult }

theorem acceptedEnc_eq (s : State) (t : InTok) (next : EncCore × List OutTok) : acceptedEnc s t next.1 next.2 =
    s.setEnc (acceptedEngine .none s.cntW s.enc t next) (s.encTrace.accept t) := rfl

theorem acceptedDec_eq (s : State) (t : InTok) (next : DecCore × List OutTok) : acceptedDec s t next.1 next.2 =
    s.setDec (acceptedEngine .none s.cntW s.dec t next) (s.decTrace.accept t) := rfl

/-- Input counting over the invocation (R181, R182). -/
theorem acceptedEngine_inCount {ts : List InTok} (hactive : e.active = openInvocation ts)
    (hin : e.inCount = countBytes (lastInvocation ts) % 2 ^ w) (t : InTok) (next : κ × List OutTok) :
    (acceptedEngine noResult w e t next).inCount = countBytes (lastInvocation (ts ++ [t])) % 2 ^ w := by
  rw [lastInvocation_concat_eq, countBytes_append, ← hactive]
  cases t <;> cases ha : e.active <;> simp [acceptedEngine, ha, hin, countBytes]

/-- `Accept` on an engine with nothing pending: the framing carries the counter and the result of an open invocation
over, and the rule adds the token's output (R181 to R183, R60). -/
theorem StreamsAgree.accept (laws : TableLaws table start resultOf noResult)
    (h : StreamsAgree table start resultOf noResult w e tr) (hpend : e.pend = []) (t : InTok) :
    StreamsAgree table start resultOf noResult w (acceptedEngine noResult w e t (table e.core t)) (tr.accept t) := by
  obtain ⟨hrun, hactive, -, hin, hout, hresult, -⟩ := h
  rw [hpend, List.append_nil] at hrun
  have hcore : (runTable table start tr.accepted).1 = e.core := congrArg Prod.fst hrun
  have hcarriedCount : (acceptedEngine noResult w e t (table e.core t)).outCount % 2 ^ w =
      (bytesOf (carriedOut table start tr.accepted)).length % 2 ^ w := by
    cases ha : e.active with
    | true => simpa [acceptedEngine, carriedOut, ← hactive, ha, hpend, bytesOf] using hout
    | false => simp [acceptedEngine, carriedOut, ← hactive, ha, bytesOf]
  have hcarriedResult : (acceptedEngine noResult w e t (table e.core t)).result =
      resultOf (carriedOut table start tr.accepted) := by
    cases ha : e.active with
    | true => simp [acceptedEngine, carriedOut, ← hactive, ha, hresult hpend]
    | false => simp [acceptedEngine, carriedOut, ← hactive, ha, laws.result_nil]
  have hadds : invocationOut table start (tr.accept t).accepted =
      carriedOut table start tr.accepted ++ (table e.core t).2 := by
    rw [← hcore]
    exact invocationOut_concat laws _ t
  refine ⟨?run, (openInvocation_concat _ t).symm, ?suffix, acceptedEngine_inCount hactive hin t _, ?outCount,
    fun hnone => ?result, fun hemits => ?noResult⟩
  case run => simp [runTable_concat, hrun, acceptedEngine]
  case suffix =>
    rw [hadds]
    exact List.suffix_append _ _
  case outCount =>
    rw [hadds, bytesOf_append, List.length_append]
    exact Nat.ModEq.add_right _ hcarriedCount
  case result =>
    have hempty : (table e.core t).2 = [] := hnone
    rw [hadds, hempty, List.append_nil]
    exact hcarriedResult
  case noResult =>
    rw [← hcore] at hemits
    exact hcarriedResult.trans (result_of_carriedOut laws hemits)

/-- Output counting does not change what is counted or still to be counted (R185). -/
theorem countOut_add_pending (w n : Nat) (o : OutTok) (rest : List OutTok) :
    (countOut w o n + (bytesOf rest).length) % 2 ^ w = (n + (bytesOf (o :: rest)).length) % 2 ^ w := by
  cases o with
  | byte b => simp [countOut, countUp, bytesOf, Nat.add_assoc, Nat.add_comm 1]
  | endTok | error => rfl

/-- `Deliver` of the head of `pend`, with the result `r` that R186 gives after it. -/
theorem StreamsAgree.deliver (laws : TableLaws table start resultOf noResult)
    (h : StreamsAgree table start resultOf noResult w e tr) {o : OutTok} {rest : List OutTok} {r : ρ}
    (hpend : e.pend = o :: rest) (hr : r = if isByte o then e.result else resultOf [o]) :
    StreamsAgree table start resultOf noResult w
      { e with pend := rest, outCount := countOut w o e.outCount, result := r } (tr.deliver o) := by
  obtain ⟨hrun, hactive, hsuffix, hin, hout, -, hnoResult⟩ := h
  have hnone : e.result = noResult := hnoResult (by simp [hpend])
  rw [hpend] at hrun hsuffix hout
  obtain ⟨before, hbefore⟩ := hsuffix
  refine ⟨?run, hactive, ?suffix, hin, (countOut_add_pending w _ o rest).trans hout, fun hempty => ?result,
    fun hmore => ?noResult⟩
  case run => simpa using hrun
  case suffix => exact ⟨before ++ [o], by simpa using hbefore⟩
  case result =>
    subst hempty
    have hlast : resultOf (invocationOut table start tr.accepted) = resultOf [o] := by
      rw [← hbefore, laws.result_concat]
    refine Eq.trans ?_ hlast.symm
    cases o with
    | byte b => exact (hr.trans hnone).trans (laws.result_byte b).symm
    | endTok | error => exact hr
  case noResult =>
    have hform : (o :: rest).dropLast.all isByte = true := by
      have hall := (invocationOut_form laws tr.accepted).1
      rw [← hbefore, List.dropLast_append_of_ne_nil (List.cons_ne_nil o rest), List.all_append, Bool.and_eq_true] at hall
      exact hall.2
    have hbyte : isByte o = true := Bool.of_not_eq_false fun ho => hmore (eq_nil_of_head_not_byte hform ho)
    exact (hr.trans (if_pos hbyte)).trans hnone

/-! ### The two engines' edges -/

theorem encResultAfter_eq {o : OutTok} {r r' : EncResult} (h : encResultAfter o r = some r') :
    r' = if isByte o then r else encResultOf [o] := by
  cases o with
  | byte | endTok => exact (Option.some.inj h).symm
  | error => cases h

theorem decResultAfter_eq (o : OutTok) (r : DecResult) :
    decResultAfter o r = if isByte o then r else decResultOf [o] := by
  match o with
  | .byte _ | .endTok | .error .truncatedRecord | .error .invalidControlByte => rfl

/-- Every edge at ENC keeps its streams and its record in agreement. -/
theorem encEdge_keeps_traceInv {p : Pins} {s t : State} (hinv : EncTraceInv s) (h : encEdge p s = .next t) :
    EncTraceInv t := by
  obtain ⟨-, rfl⟩ | ⟨-, -, hpend, i, hdec, hexec⟩ | ⟨-, -, -, hdeliver⟩ | ⟨-, rfl⟩ := encEdge_cases h
  · exact encTraceInv_resetWith s.cntW
  · rw [exec_of_decodeEnc_eq_table hpend hdec, acceptedEnc_eq] at hexec
    cases hexec
    exact encTraceInv_iff.mpr ((encTraceInv_iff.mp hinv).accept encTable_laws hpend _)
  · obtain ⟨-, rfl⟩ | ⟨o, rest, r, hpend, hr, rfl⟩ := deliverEnc_cases hdeliver
    · exact hinv
    · exact encTraceInv_iff.mpr ((encTraceInv_iff.mp hinv).deliver encTable_laws hpend (encResultAfter_eq hr))
  · exact hinv

/-- Every edge at DEC keeps its streams and its record in agreement. -/
theorem decEdge_keeps_traceInv {p : Pins} {s t : State} (hinv : DecTraceInv s) (h : decEdge p s = .next t) :
    DecTraceInv t := by
  obtain ⟨-, rfl⟩ | ⟨-, -, hpend, i, hdec, hexec⟩ | ⟨-, -, -, hdeliver⟩ | ⟨-, rfl⟩ := decEdge_cases h
  · exact decTraceInv_resetWith s.cntW
  · rw [exec_of_decodeDec_eq_table hpend hdec, acceptedDec_eq] at hexec
    cases hexec
    exact decTraceInv_iff.mpr ((decTraceInv_iff.mp hinv).accept decTable_laws hpend _)
  · obtain ⟨-, rfl⟩ | ⟨o, rest, hpend, rfl⟩ := deliverDec_cases hdeliver
    · exact hinv
    · exact decTraceInv_iff.mpr ((decTraceInv_iff.mp hinv).deliver decTable_laws hpend (decResultAfter_eq o _))
  · exact hinv

/-- The agreement is about what ENC holds. -/
theorem encTraceInv_of_view {s t : State} (hview : encView t = encView s) (hinv : EncTraceInv s) : EncTraceInv t := by
  obtain ⟨hw, henc, htrace, -⟩ := encView_eq_iff.mp hview
  rw [encTraceInv_iff, hw, henc, htrace]
  exact hinv

/-- The agreement is about what DEC holds. -/
theorem decTraceInv_of_view {s t : State} (hview : decView t = decView s) (hinv : DecTraceInv s) : DecTraceInv t := by
  obtain ⟨hw, hdec, htrace, -⟩ := decView_eq_iff.mp hview
  rw [decTraceInv_iff, hw, hdec, htrace]
  exact hinv

end Sys2Proof
end

section
/-! SUPPORT. DEC's output in one invocation, from any core but `Drain`: bytes, then one terminator (R190). -/

namespace Sys2Proof

open Machine

/-- The three tokens that end DEC's output (R190). -/
def IsTerminator (o : OutTok) : Prop := o = .endTok ∨ o = .error .truncatedRecord ∨ o = .error .invalidControlByte

/-- Outside `Drain` the token `End` gives a terminator (R147 to R149). -/
theorem decTable_end_out {k : DecCore} (hk : k ≠ .drain) : ∃ o, (decTable k .endTok).2 = [o] ∧ IsTerminator o := by
  cases k with
  | ctrl => exact ⟨_, rfl, .inl rfl⟩
  | runVal | litPay => exact ⟨_, rfl, .inr (.inl rfl)⟩
  | drain => exact absurd rfl hk

/-- Outside `Drain` a byte gives bytes, or the terminator on the way to `Drain` (R141 to R145). -/
theorem decTable_byte_out {k : DecCore} (hk : k ≠ .drain) (b : Byte) :
    ((decTable k (.byte b)).1 ≠ .drain ∧ ∃ bs : List Byte, (decTable k (.byte b)).2 = bs.map .byte) ∨
      decTable k (.byte b) = (.drain, [.error .invalidControlByte]) := by
  cases k with
  | ctrl =>
    simp only [decTable]
    split_ifs with hrun hlit
    · exact .inl ⟨nofun, [], rfl⟩
    · exact .inl ⟨nofun, [], rfl⟩
    · exact .inr rfl
  | runVal n => exact .inl ⟨nofun, List.replicate n b, List.map_replicate.symm⟩
  | litPay r =>
    refine .inl ⟨?_, [b], rfl⟩
    simp only [decTable]
    split_ifs <;> nofun
  | drain => exact absurd rfl hk

/-- The rest of an invocation outside `Drain`. -/
theorem runTable_invocation_out {k : DecCore} (hk : k ≠ .drain) (ys : List Byte) : ∃ (bs : List Byte) (o : OutTok),
    (runTable decTable k (invocation ys)).2 = bs.map .byte ++ [o] ∧ IsTerminator o := by
  induction ys generalizing k with
  | nil =>
    obtain ⟨o, hout, hterm⟩ := decTable_end_out hk
    exact ⟨[], o, by simp [invocation, runTable, hout], hterm⟩
  | cons y ys ih =>
    have hcons : (runTable decTable k (invocation (y :: ys))).2 =
        (decTable k (.byte y)).2 ++ (runTable decTable (decTable k (.byte y)).1 (invocation ys)).2 := rfl
    obtain ⟨hnext, bs, hout⟩ | hraise := decTable_byte_out hk y
    · obtain ⟨bs', o, hrest, hterm⟩ := ih hnext
      exact ⟨bs ++ bs', o, by simp [hcons, hout, hrest], hterm⟩
    · exact ⟨[], _, by simp [hcons, hraise, runTable_drain_invocation], .inr (.inr rfl)⟩

end Sys2Proof
end

section
/-! PROOFS. The statements of 42_stream_port.md: the transfers at an edge (R180, R184 to R187), the terminator (R190),
and that an engine's streams are its table's output (R188). -/

namespace Sys2Proof

open Machine

/-- Settles O48: ENC's part of the edge keeps the agreement, and the rest of the step leaves what ENC holds. -/
theorem stepKeepsEncTrace : Obligations.StepKeepsEncTrace := by
  intro s t hinv h
  obtain ⟨m, hedge, hview⟩ := step_encView h
  exact encTraceInv_of_view hview (encEdge_keeps_traceInv (s := s.advance) hinv hedge)

/-- Settles O49: DEC's part of the edge keeps the agreement, and the rest of the step leaves what DEC holds. -/
theorem stepKeepsDecTrace : Obligations.StepKeepsDecTrace := by
  intro s t hinv h
  obtain ⟨m, hedge, hview⟩ := step_decView h
  exact decTraceInv_of_view hview (decEdge_keeps_traceInv (s := s.advance) hinv hedge)

/-- Settles O38: every row is an `Accept`, which waits; and with output pending and no sink an edge enables nothing. -/
theorem pendingOutputBlocksInput : Obligations.PendingOutputBlocksInput := by
  intro s i
  refine ⟨fun hpend hrow => ?encRow, fun hpend hrow => ?decRow, fun hpend hrst hready => ?enc,
    fun hpend hrst hready => ?dec⟩
  case encRow =>
    obtain ⟨rule, -, hexec⟩ := exec_encRow hrow
    rw [hexec]
    exact acceptEnc_of_pending hpend
  case decRow =>
    obtain ⟨rule, -, hexec⟩ := exec_decRow hrow
    rw [hexec]
    exact acceptDec_of_pending hpend
  case enc =>
    exact step_of_encEdge (encEdge_of_nothing_enabled (s := s.advance) hrst (acceptEnabled_of_pending hpend)
      (deliverEnabled_of_not_ready hready))
  case dec =>
    refine step_of_dec_idle fun m hm => decEdge_of_nothing_enabled hrst (acceptEnabled_of_pending ?_)
      (deliverEnabled_of_not_ready hready)
    rwa [hm]

/-- Settles O39: ENC's part of the edge is `Deliver`. -/
theorem deliverFromEnc : Obligations.DeliverFromEnc := by
  intro s o rest hrst hready hpend
  have hedge : encEdge s.pinsNow.enc s.advance = deliverEnc s.advance :=
    encEdge_of_take (s := s.advance) hrst hready (by simp [hpend])
  refine ⟨fun herror => ?_, fun herror => ?_⟩
  · exact step_of_encEdge (hedge.trans (deliverEnc_of_pend hpend herror))
  · simp [step, bothEdges, hedge, deliverEnc_of_error (s := s.advance) hpend herror]

/-- Settles O40: DEC's part of the edge is `Deliver`, and ENC's part leaves what DEC holds. -/
theorem deliverFromDec : Obligations.DeliverFromDec := by
  intro s m o rest hrst hready hpend henc
  have hview : decView m = decView s.advance := (encEdge_local _).view_other encPart_apart_decPart.symm henc
  obtain ⟨hw, hdec, htrace, -⟩ := decView_eq_iff.mp hview
  rw [State.advance_cntW] at hw
  rw [State.advance_dec] at hdec
  rw [State.advance_decTrace] at htrace
  have hmpend : m.dec.pend = o :: rest := hdec ▸ hpend
  have hdeliver := deliverDec_of_pend hmpend
  rw [hw, hdec, htrace] at hdeliver
  rw [step_of_encEdge henc, decEdge_of_take hrst hready (by simp [hmpend]), hdeliver]
  match o with
  | .byte _ | .endTok | .error .truncatedRecord | .error .invalidControlByte => rfl

/-- Settles O53: ENC's output is `ENC(xs)` and `End`; DEC starts outside `Drain`. -/
theorem oneTerminator : Obligations.OneTerminator :=
  ⟨fun xs => ⟨encBytes xs, encOutputs_eq_encBytes xs⟩, runTable_invocation_out nofun⟩

/-- Settles O36: an offered engine runs its row, an idle one does nothing, and DEC decodes as before ENC's part. -/
theorem stepRunsDecoded : Obligations.StepRunsDecoded := by
  intro s i j
  refine ⟨fun hrst hvalid hpend hdec hrst' hvalid' hready' => ?enc,
    fun hrst hvalid hpend hdec hrst' hvalid' hready' => ?dec,
    fun hrst hvalid hpend hdec hrst' hvalid' hpend' hdec' => ?both⟩
  case enc =>
    rw [step_of_dec_idle fun m _ => decEdge_of_nothing_enabled hrst' (acceptEnabled_of_no_offer hvalid')
      (deliverEnabled_of_not_ready hready')]
    exact encEdge_of_offer (s := s.advance) hrst hvalid hpend hdec
  case dec =>
    rw [step_of_encEdge (encEdge_of_nothing_enabled hrst' (acceptEnabled_of_no_offer hvalid')
      (deliverEnabled_of_not_ready hready'))]
    exact decEdge_of_offer (s := s.advance) hrst hvalid hpend hdec
  case both =>
    have hdecEdge (m : State) (hm : m.dec = s.dec) : decEdge s.pinsNow.dec m = exec j m :=
      decEdge_of_offer hrst' hvalid' (hm ▸ hpend') (hm ▸ hdec')
    rw [step_of_decEdge hdecEdge, encEdge_of_offer (s := s.advance) hrst hvalid hpend hdec]
    rfl

/-- Settles O41: `pend` is empty for the one transfer and not for the other, and both need `rst = 0`. -/
theorem oneActionPerEdge : Obligations.OneActionPerEdge :=
  ⟨fun _ _ => not_acceptEnabled_and_deliverEnabled, fun _ _ => not_acceptEnabled_and_deliverEnabled,
    fun p s hrst => by simp [acceptEnabled, deliverEnabled, hrst],
    fun _ _ => encEdge_of_nothing_enabled, fun _ _ => decEdge_of_nothing_enabled⟩

end Sys2Proof
end

section
/-! SUPPORT. An edge with `rst` (R230), a step at which one engine's host is idle, and runs of several steps. -/

namespace Sys2Proof.Machine

/-- `rst` comes before every transfer, in every state (R230). -/
theorem encEdge_of_rst {p : Pins} (hrst : p.rst = true) (s : State) : encEdge p s = .next (resetEnc s) := by
  simp [encEdge, hrst]

/-- `rst` comes before every transfer, in every state (R230). -/
theorem decEdge_of_rst {p : Pins} (hrst : p.rst = true) (s : State) : decEdge p s = .next (resetDec s) := by
  simp [decEdge, hrst]

/-- Where DEC's host is idle the step is ENC's part. -/
theorem step_of_dec_pins_idle {s : State} (hidle : s.pinsNow.dec = Pins.idle) :
    step s = encEdge s.pinsNow.enc s.advance :=
  step_of_dec_idle fun _ _ => by
    rw [hidle]
    exact decEdge_of_nothing_enabled rfl (acceptEnabled_of_no_offer rfl) (deliverEnabled_of_not_ready rfl)

/-- Where ENC's host is idle the step is DEC's part. -/
theorem step_of_enc_pins_idle {s : State} (hidle : s.pinsNow.enc = Pins.idle) :
    step s = decEdge s.pinsNow.dec s.advance := by
  refine step_of_encEdge ?_
  rw [hidle]
  exact encEdge_of_nothing_enabled rfl (acceptEnabled_of_no_offer rfl) (deliverEnabled_of_not_ready rfl)

/-- Output counting, by whether the token is a byte (R185). -/
theorem countOut_eq_ite (w : Nat) (o : OutTok) (n : Nat) :
    countOut w o n = if isByte o then (n + 1) % 2 ^ w else n := by
  cases o <;> rfl

/-- A run begins with a step. -/
theorem run_succ_of_step {s t : State} (h : step s = .next t) (n : Nat) :
    Host.Core.run core (n + 1) s = Host.Core.run core n t := by
  have hcore : core.step s = .next t := h
  simp [Host.Core.run, hcore]

/-- A run of at least one step depends on the state through its step only. -/
theorem run_congr_of_step {n : Nat} (hn : 0 < n) {s s' : State} (h : step s = step s') :
    Host.Core.run core n s = Host.Core.run core n s' := by
  obtain ⟨m, rfl⟩ := Nat.exists_eq_add_one.mpr hn
  have hcore : core.step s = core.step s' := h
  simp only [Host.Core.run, hcore]

/-- One run after another. -/
theorem run_add {m : Nat} {s t : State} (h : Host.Core.run core m s = .next t) (n : Nat) :
    Host.Core.run core (m + n) s = Host.Core.run core n t := by
  induction m generalizing s with
  | zero =>
    cases h
    rw [Nat.zero_add]
  | succ m ih =>
    cases hstep : step s with
    | next s' =>
      rw [run_succ_of_step hstep] at h
      rw [Nat.succ_add, run_succ_of_step hstep, ih h]
    | fault | refused =>
      have hcore : core.step s = _ := hstep
      simp [Host.Core.run, hcore] at h

end Sys2Proof.Machine
end

section
/-! SUPPORT. An engine that runs its table alone, with a source that always offers and a sink that is always ready (R241),
for both engines at once: it takes one edge per input token and one per output token, and nothing stays pending. -/

namespace Sys2Proof

open Machine

variable {κ ρ : Type}

/-! ### A host that never waits -/

/-- The word of a token reads as the token (R83). -/
theorem tokenOf_wordOf (t : InTok) : tokenOf (wordOf t) = t := by
  cases t with
  | byte b => exact tokenOf_byteWord b
  | endTok => exact tokenOf_endWord

theorem tokenOf_eagerOffer (t : InTok) : tokenOf (eagerOffer t).tokenWord = t :=
  (congrArg tokenOf (tokenWord_offer (wordOf t))).trans (tokenOf_wordOf t)

theorem eagerWait_rst (ts : List InTok) : (eagerWait ts).rst = false := by cases ts <;> rfl

theorem eagerWait_outReady (ts : List InTok) : (eagerWait ts).outReady = true := by cases ts <;> rfl

/-! ### With nothing pending -/

/-- The streams once all the output of `ts` is delivered. -/
def settledTrace (table : κ → InTok → κ × List OutTok) (start : κ) (ts : List InTok) : Trace :=
  { accepted := ts, delivered := (runTable table start ts).2 }

/-- The record once all the output of `ts` is delivered: the one that agrees with `settledTrace`. -/
def settledEngine (table : κ → InTok → κ × List OutTok) (start : κ) (resultOf : List OutTok → ρ) (w : Nat)
    (ts : List InTok) : Engine κ ρ :=
  { core := (runTable table start ts).1
    active := openInvocation ts
    pend := []
    inCount := countBytes (lastInvocation ts) % 2 ^ w
    outCount := (bytesOf (invocationOut table start ts)).length % 2 ^ w
    result := resultOf (invocationOut table start ts) }

variable {table : κ → InTok → κ × List OutTok} {start : κ} {resultOf : List OutTok → ρ} {noResult : ρ} {w : Nat}
  {e : Engine κ ρ} {tr : Trace}

theorem streamsAgree_settled (ts : List InTok) : StreamsAgree table start resultOf noResult w
    (settledEngine table start resultOf w ts) (settledTrace table start ts) := by
  refine ⟨?run, rfl, List.nil_suffix, rfl, Nat.mod_mod _ _, fun _ => rfl, fun hpend => absurd rfl hpend⟩
  case run => simp [settledEngine, settledTrace]

/-- With nothing pending the accepted tokens settle the record and the streams. -/
theorem StreamsAgree.eq_settled (h : StreamsAgree table start resultOf noResult w e tr) (hpend : e.pend = [])
    (hwidth : e.outCount < 2 ^ w) :
    e = settledEngine table start resultOf w tr.accepted ∧ tr = settledTrace table start tr.accepted := by
  obtain ⟨hrun, hactive, -, hin, hout, hresult, -⟩ := h
  rw [hpend, List.append_nil] at hrun
  rw [hpend] at hout
  have hcount : e.outCount = (bytesOf (invocationOut table start tr.accepted)).length % 2 ^ w :=
    (Nat.mod_eq_of_lt hwidth).symm.trans hout
  constructor
  · simp [settledEngine, hrun, ← hactive, ← hpend, ← hin, ← hcount, ← hresult hpend]
  · simp [settledTrace, hrun]

/-! ### Runs -/

/-- `place e tr ps n` is a machine in which one engine has the record `e` and the streams `tr`, its pins to come begin
with `ps`, and the other engine's host is idle meanwhile: a step of it is `Accept` or `Deliver` on the one engine, in a
core and of a token that the table gives. -/
structure RunsAlone (table : κ → InTok → κ × List OutTok) (start : κ) (resultOf : List OutTok → ρ) (noResult : ρ)
    (w : Nat) (place : Engine κ ρ → Trace → List Pins → Nat → State) : Prop where
  accept : ∀ {e : Engine κ ρ} (ts : List InTok), e.core = (runTable table start ts).1 → e.pend = [] →
    ∀ (t : InTok) (tr : Trace) (ps : List Pins) (n : Nat), step (place e tr (eagerOffer t :: ps) n) =
      .next (place (acceptedEngine noResult w e t (table e.core t)) (tr.accept t) ps (n + 1))
  deliver : ∀ {e : Engine κ ρ} {p : Pins} {o : OutTok} {rest : List OutTok} (ts : List InTok),
    o ∈ (runTable table start ts).2 → e.pend = o :: rest → p.rst = false → p.outReady = true →
    ∀ (tr : Trace) (ps : List Pins) (n : Nat), step (place e tr (p :: ps) n) =
      .next (place
        { e with
          pend := rest
          outCount := countOut w o e.outCount
          result := if isByte o then e.result else resultOf [o] } (tr.deliver o) ps (n + 1))

section Runs
variable {place : Engine κ ρ → Trace → List Pins → Nat → State}
  (alone : RunsAlone table start resultOf noResult w place) (laws : TableLaws table start resultOf noResult)
include alone laws

/-- A sink that is always ready takes all that is pending, one token an edge. -/
theorem run_deliver {p : Pins} (hrst : p.rst = false) (hready : p.outReady = true)
    (h : StreamsAgree table start resultOf noResult w e tr) (hwidth : e.outCount < 2 ^ w) (ps : List Pins) (n : Nat) :
    Host.Core.run core e.pend.length (place e tr (List.replicate e.pend.length p ++ ps) n) =
      .next (place (settledEngine table start resultOf w tr.accepted) (settledTrace table start tr.accepted) ps
        (n + e.pend.length)) := by
  induction hpend : e.pend generalizing e tr n with
  | nil =>
    obtain ⟨he, htr⟩ := h.eq_settled hpend hwidth
    rw [← he, ← htr]
    rfl
  | cons o rest ih =>
    have hmem : o ∈ (runTable table start tr.accepted).2 := by
      rw [h.1, hpend]
      exact List.mem_append_right _ List.mem_cons_self
    rw [List.length_cons, List.replicate_succ, List.cons_append,
      run_succ_of_step (alone.deliver tr.accepted hmem hpend hrst hready tr _ n),
      ih (h.deliver laws hpend rfl) (countOut_lt o hwidth) (n + 1) rfl, Nat.add_right_comm]
    rfl

/-- One token and its output: an edge to accept it and one for each token it emits. -/
theorem run_token (ts : List InTok) (t : InTok) {p : Pins} (hrst : p.rst = false) (hready : p.outReady = true)
    (ps : List Pins) (n : Nat) :
    Host.Core.run core ((table (runTable table start ts).1 t).2.length + 1)
        (place (settledEngine table start resultOf w ts) (settledTrace table start ts)
          (eagerOffer t :: (List.replicate (table (runTable table start ts).1 t).2.length p ++ ps)) n) =
      .next (place (settledEngine table start resultOf w (ts ++ [t])) (settledTrace table start (ts ++ [t])) ps
        (n + ((table (runTable table start ts).1 t).2.length + 1))) := by
  have hagree : StreamsAgree table start resultOf noResult w
      (acceptedEngine noResult w (settledEngine table start resultOf w ts) t (table (runTable table start ts).1 t))
      ((settledTrace table start ts).accept t) := (streamsAgree_settled ts).accept laws rfl t
  have hrest := run_deliver alone laws hrst hready hagree (cleared_lt _ (Nat.mod_lt _ (Nat.two_pow_pos w))) ps (n + 1)
  rw [Nat.add_assoc, Nat.add_comm 1] at hrest
  rw [run_succ_of_step (alone.accept ts rfl rfl t _ _ n)]
  exact hrest

/-- Tokens and their output, one edge per token (R192, R241). -/
theorem run_tokens (ts us : List InTok) (ps : List Pins) (n : Nat) :
    Host.Core.run core (us.length + (runTable table (runTable table start ts).1 us).2.length)
        (place (settledEngine table start resultOf w ts) (settledTrace table start ts)
          (eagerPins table (runTable table start ts).1 us ++ ps) n) =
      .next (place (settledEngine table start resultOf w (ts ++ us)) (settledTrace table start (ts ++ us)) ps
        (n + (us.length + (runTable table (runTable table start ts).1 us).2.length))) := by
  induction us generalizing ts n with
  | nil => simp [runTable, eagerPins, Host.Core.run]
  | cons t us ih =>
    have hfirst := run_token alone laws ts t (eagerWait_rst us) (eagerWait_outReady us)
      (eagerPins table (table (runTable table start ts).1 t).1 us ++ ps) n
    have hrest := ih (ts ++ [t]) (n + ((table (runTable table start ts).1 t).2.length + 1))
    rw [runTable_concat, List.append_assoc, List.singleton_append] at hrest
    have hcount : (t :: us).length + (runTable table (runTable table start ts).1 (t :: us)).2.length =
        ((table (runTable table start ts).1 t).2.length + 1) +
          (us.length + (runTable table (table (runTable table start ts).1 t).1 us).2.length) := by
      simp only [runTable, List.length_cons, List.length_append]
      omega
    rw [hcount, eagerPins, List.cons_append, List.append_assoc, run_add hfirst, hrest, Nat.add_assoc]

/-- Outside an invocation the first token clears the report (R181), so the tokens run as from reset. -/
theorem run_from_closed (hcore : e.core = start) (hactive : e.active = false) (hpend : e.pend = []) {ts : List InTok}
    (hne : ts ≠ []) (n : Nat) :
    Host.Core.run core (ts.length + (runTable table start ts).2.length)
        (place e Trace.empty (eagerPins table start ts) n) =
      .next (place (settledEngine table start resultOf w ts) (settledTrace table start ts) []
        (n + (ts.length + (runTable table start ts).2.length))) := by
  obtain ⟨t, us, rfl⟩ := List.exists_cons_of_ne_nil hne
  have hframed : acceptedEngine noResult w e t (table e.core t) =
      acceptedEngine noResult w (settledEngine table start resultOf w []) t
        (table (settledEngine table start resultOf w []).core t) := by
    simp [acceptedEngine, settledEngine, runTable, openInvocation, hcore, hactive]
  have hstep (ps : List Pins) : step (place e Trace.empty (eagerOffer t :: ps) n) =
      step (place (settledEngine table start resultOf w []) (settledTrace table start []) (eagerOffer t :: ps) n) := by
    rw [alone.accept [] hcore hpend, alone.accept [] rfl rfl, hframed]
    rfl
  have hpos : 0 < (t :: us).length + (runTable table start (t :: us)).2.length := Nat.add_pos_left (Nat.succ_pos _) _
  have hreset := run_tokens alone laws [] (t :: us) [] n
  rw [List.append_nil] at hreset
  exact (run_congr_of_step hpos (hstep _)).trans hreset

end Runs

/-! ### The record an invocation leaves -/

theorem countBytes_map_byte (xs : List Byte) : countBytes (xs.map .byte) = xs.length := by
  induction xs with
  | nil => rfl
  | cons x xs ih => exact congrArg (· + 1) ih

theorem invocation_ne_nil (xs : List Byte) : invocation xs ≠ [] := List.concat_ne_nil _ _

/-- After one invocation the engine is closed, and the report is that of the invocation (R28, R183, R186). -/
theorem settledEngine_invocation (laws : TableLaws table start resultOf noResult) (xs : List Byte) :
    settledEngine table start resultOf w (invocation xs) =
      { core := start
        active := false
        pend := []
        inCount := xs.length % 2 ^ w
        outCount := (bytesOf (runTable table start (invocation xs)).2).length % 2 ^ w
        result := resultOf (runTable table start (invocation xs)).2 } := by
  have hclosed : openInvocation (invocation xs) = false := openInvocation_concat _ _
  have hin : countBytes (invocation xs) = xs.length := by
    rw [invocation, countBytes_append, countBytes_map_byte]
    rfl
  simp [settledEngine, invocationOut, lastInvocation_invocation, hclosed, hin, core_of_not_open laws hclosed]

end Sys2Proof
end

section
/-! SUPPORT. Each engine beside an idle host of the other runs its table alone; and what is left after one invocation. -/

namespace Sys2Proof

open Machine

/-! ### ENC -/

/-- ENC reaches legal cores only (R22, R115). -/
theorem encCoreLegal_runTable (ts : List InTok) : encCoreLegal (runTable encTable .idle ts).1 = true := by
  induction ts using List.reverseRecOn with
  | nil => rfl
  | append_singleton ts t ih =>
    rw [runTable_concat]
    exact encTable_core_legal t ih

/-- ENC's outputs hold no `Error` (R204). -/
theorem isError_of_mem_runTable_encTable {ts : List InTok} {o : OutTok} (ho : o ∈ (runTable encTable .idle ts).2) :
    isError o = false := by
  induction ts using List.reverseRecOn with
  | nil => cases ho
  | append_singleton ts t ih =>
    rw [runTable_concat, List.mem_append] at ho
    obtain hbefore | hnew := ho
    · exact ih hbefore
    · obtain ⟨-, -, -, hnone⟩ := encTable_out_form t (encCoreLegal_runTable ts)
      exact Bool.eq_false_of_not_eq_true (List.any_eq_false.mp hnone o hnew)

/-- `s` with ENC's record `e`, with `tr` beyond the streams that ENC had, and with `ps` to come at ENC alone before
`rest`. -/
def placeEnc (s : State) (rest : List Edge) (e : EncState) (tr : Trace) (ps : List Pins) (n : Nat) : State :=
  { s with
    enc := e
    encTrace :=
      { accepted := s.encTrace.accepted ++ tr.accepted, delivered := s.encTrace.delivered ++ tr.delivered }
    edges := encOnly ps ++ rest
    tick := n }

/-- At the first of `ps` the step is ENC's part. -/
theorem step_placeEnc (s : State) (rest : List Edge) (e : EncState) (tr : Trace) (p : Pins) (ps : List Pins) (n : Nat) :
    step (placeEnc s rest e tr (p :: ps) n) = encEdge p (placeEnc s rest e tr ps (n + 1)) :=
  step_of_dec_pins_idle rfl

theorem placeEnc_accept (s : State) (rest : List Edge) (e e' : EncState) (tr : Trace) (t : InTok) (ps : List Pins)
    (n : Nat) : (placeEnc s rest e tr ps n).setEnc e' ((placeEnc s rest e tr ps n).encTrace.accept t) =
      placeEnc s rest e' (tr.accept t) ps n := by
  simp [placeEnc, State.setEnc, Trace.accept]

theorem placeEnc_deliver (s : State) (rest : List Edge) (e e' : EncState) (tr : Trace) (o : OutTok) (ps : List Pins)
    (n : Nat) : (placeEnc s rest e tr ps n).setEnc e' ((placeEnc s rest e tr ps n).encTrace.deliver o) =
      placeEnc s rest e' (tr.deliver o) ps n := by
  simp [placeEnc, State.setEnc, Trace.deliver]

/-- What the delivery of a token other than an `Error` leaves as ENC's result (R186), read from the output. -/
theorem encResult_of_not_error {o : OutTok} (herror : isError o = false) (r : EncResult) :
    (if o = .endTok then .ok else r) = if isByte o then r else encResultOf [o] := by
  cases o with
  | byte | endTok => rfl
  | error => cases herror

theorem enc_runsAlone (s : State) (rest : List Edge) :
    RunsAlone encTable .idle encResultOf .none s.cntW (placeEnc s rest) where
  accept := by
    intro e ts hcore hpend t tr ps n
    have hlegal : encCoreLegal e.core = true := hcore ▸ encCoreLegal_runTable ts
    obtain ⟨i, hdec⟩ := decodeEnc_total hlegal (eagerOffer t).tokenWord
    have hexec := exec_of_decodeEnc_eq_table (s := placeEnc s rest e tr ps (n + 1)) hpend hdec
    rw [acceptedEnc_eq, placeEnc_accept, tokenOf_eagerOffer] at hexec
    rw [step_placeEnc, encEdge_of_offer rfl rfl hpend hdec]
    exact hexec
  deliver := by
    intro e p o os ts ho hpend hrst hready tr ps n
    have herror : isError o = false := isError_of_mem_runTable_encTable ho
    have hdeliver := deliverEnc_of_pend (s := placeEnc s rest e tr ps (n + 1)) hpend herror
    rw [placeEnc_deliver] at hdeliver
    rw [step_placeEnc, encEdge_of_take hrst hready (ne_of_eq_of_ne hpend (List.cons_ne_nil o os)), countOut_eq_ite,
      ← encResult_of_not_error herror]
    exact hdeliver

theorem encResultOf_encOutputs (xs : List Byte) : encResultOf (encOutputs xs) = .ok := by
  rw [encOutputs_eq_encBytes, encTable_laws.result_concat]
  rfl

/-! ### DEC -/

/-- DEC reaches legal cores only (R25, R151). -/
theorem decCoreLegal_runTable (ts : List InTok) : decCoreLegal (runTable decTable .ctrl ts).1 = true := by
  induction ts using List.reverseRecOn with
  | nil => rfl
  | append_singleton ts t ih =>
    rw [runTable_concat]
    exact decTable_core_legal t ih

/-- `s` with DEC's record `e`, with `tr` beyond the streams that DEC had, and with `ps` to come at DEC alone before
`rest`. -/
def placeDec (s : State) (rest : List Edge) (e : DecState) (tr : Trace) (ps : List Pins) (n : Nat) : State :=
  { s with
    dec := e
    decTrace :=
      { accepted := s.decTrace.accepted ++ tr.accepted, delivered := s.decTrace.delivered ++ tr.delivered }
    edges := decOnly ps ++ rest
    tick := n }

/-- At the first of `ps` the step is DEC's part. -/
theorem step_placeDec (s : State) (rest : List Edge) (e : DecState) (tr : Trace) (p : Pins) (ps : List Pins) (n : Nat) :
    step (placeDec s rest e tr (p :: ps) n) = decEdge p (placeDec s rest e tr ps (n + 1)) :=
  step_of_enc_pins_idle rfl

theorem placeDec_accept (s : State) (rest : List Edge) (e e' : DecState) (tr : Trace) (t : InTok) (ps : List Pins)
    (n : Nat) : (placeDec s rest e tr ps n).setDec e' ((placeDec s rest e tr ps n).decTrace.accept t) =
      placeDec s rest e' (tr.accept t) ps n := by
  simp [placeDec, State.setDec, Trace.accept]

theorem placeDec_deliver (s : State) (rest : List Edge) (e e' : DecState) (tr : Trace) (o : OutTok) (ps : List Pins)
    (n : Nat) : (placeDec s rest e tr ps n).setDec e' ((placeDec s rest e tr ps n).decTrace.deliver o) =
      placeDec s rest e' (tr.deliver o) ps n := by
  simp [placeDec, State.setDec, Trace.deliver]

theorem dec_runsAlone (s : State) (rest : List Edge) :
    RunsAlone decTable .ctrl decResultOf .none s.cntW (placeDec s rest) where
  accept := by
    intro e ts hcore hpend t tr ps n
    have hlegal : decCoreLegal e.core = true := hcore ▸ decCoreLegal_runTable ts
    obtain ⟨i, hdec⟩ := decodeDec_total hlegal (eagerOffer t).tokenWord
    have hexec := exec_of_decodeDec_eq_table (s := placeDec s rest e tr ps (n + 1)) hpend hdec
    rw [acceptedDec_eq, placeDec_accept, tokenOf_eagerOffer] at hexec
    rw [step_placeDec, decEdge_of_offer rfl rfl hpend hdec]
    exact hexec
  deliver := by
    intro e p o os ts _ hpend hrst hready tr ps n
    have hdeliver := deliverDec_of_pend (s := placeDec s rest e tr ps (n + 1)) hpend
    rw [placeDec_deliver] at hdeliver
    rw [step_placeDec, decEdge_of_take hrst hready (ne_of_eq_of_ne hpend (List.cons_ne_nil o os)), countOut_eq_ite,
      ← decResultAfter_eq]
    exact hdeliver

end Sys2Proof
end

section
/-! PROOFS. The statements of 70_reset_and_hazards.md: an edge with `rst` (R230), and a whole invocation at a host that
never waits (R241). -/

namespace Sys2Proof

open Machine

/-- Settles O42: with `rst` an engine's part of the edge is `Reset`, and the other part is run as it is. -/
theorem resetEdge : Obligations.ResetEdge := by
  refine ⟨fun s hrst => ?enc, fun s m hrst henc => ?dec⟩
  case enc => exact step_of_encEdge (encEdge_of_rst hrst s.advance)
  case dec => exact (step_of_encEdge henc).trans (decEdge_of_rst hrst m)

/-- Settles O58: the schedule is ENC's alone, ENC ends the invocation with nothing pending, and its output ends in
`End`. -/
theorem encInvocationRuns : Obligations.EncInvocationRuns := by
  intro s xs rest hcore hactive hpend hedges
  have hplace : placeEnc s rest s.enc Trace.empty (eagerPins encTable .idle (invocation xs)) s.tick = s := by
    simp [placeEnc, Trace.empty, ← hedges]
  have hrun := run_from_closed (enc_runsAlone s rest) encTable_laws hcore hactive hpend (invocation_ne_nil xs) s.tick
  rw [hplace, settledEngine_invocation encTable_laws] at hrun
  rw [← encResultOf_encOutputs xs]
  exact hrun

/-- Settles O59: the schedule is DEC's alone, and DEC ends the invocation with nothing pending, whatever its output. -/
theorem decInvocationRuns : Obligations.DecInvocationRuns := by
  intro s ys rest hcore hactive hpend hedges
  have hplace : placeDec s rest s.dec Trace.empty (eagerPins decTable .ctrl (invocation ys)) s.tick = s := by
    simp [placeDec, Trace.empty, ← hedges]
  have hrun := run_from_closed (dec_runsAlone s rest) decTable_laws hcore hactive hpend (invocation_ne_nil ys) s.tick
  rw [hplace, settledEngine_invocation decTable_laws] at hrun
  exact hrun

end Sys2Proof
end
